-- ==== Sys2Proof/Word.lean ====
section
/-!
DEFINITION. The word types of QOI-CORE: a byte (`u8`), a 32-bit word (`u32`) and a pixel of four bytes
(spec 00 R10, 10 R20). Their arithmetic (wrap, narrowing, hash, deltas) is in Machine/Operands.lean.
-/

namespace Sys2Proof

/-- `u8` (R10). -/
abbrev Byte := BitVec 8

/-- `u32` (R10): the width of the cursors, of the lengths and of the header fields (D13). -/
abbrev Word := BitVec 32

/-- A pixel: a record of four `u8` fields (R10, R20). -/
structure Pixel where
  /-- red -/
  r : Byte
  /-- green -/
  g : Byte
  /-- blue -/
  b : Byte
  /-- alpha -/
  a : Byte
deriving DecidableEq, Repr

/-- The recently-seen index table `IDX`: 64 pixels (R26). -/
abbrev IndexTable := Vector Pixel 64

end Sys2Proof
end

