-- ==== Sys2Proof/Config.lean ====
section
/-!
DEFINITION. What the spec leaves as a parameter of the machine (spec 00 R8, 93 U11). The constants of R7 are no
parameters; they stand with the operations that use them, in Machine/.
-/

namespace Sys2Proof

/-- `DEC_IDX_ON_RUN` (R8, 90 C1): the decoder stores into the index table after a RUN op. The spec fixes it to true
and records false as the rejected alternative. Mark: DEDUCED (log 15); safe. -/
def Config.decIdxOnRun : Bool := true

/-- The number of addresses of a memory space: an address is an unsigned 32-bit byte offset (20 R40, D2). -/
def Config.addressSpace : Nat := 4294967296

end Sys2Proof
end

