-- ==== Sys2Proof/Machine/State.lean ====
section
/-!
DEFINITION. The state of QOI-CORE as plain data (spec 10_state.md, 20_memory.md R40): the working registers, the index
table, the cursors, the control registers CR0 to CR10 and the two memory spaces; the state after hardware reset; the
reasons a step can stop.
-/

namespace Sys2Proof.Machine

/-- `PHASE` (CR1, R31): what the block is doing. The codes 5 to 7 never occur. -/
inductive Phase where
  /-- 0: after hardware reset, no run yet -/
  | idle
  /-- 1: an encode run is between its START step and its last step -/
  | busyEnc
  /-- 2: the same for a decode run -/
  | busyDec
  /-- 3: the last run ended without error -/
  | done
  /-- 4: the last run ended with an error -/
  | error
deriving DecidableEq, Repr

/-- `ERR` (CR2, R32, R171): the error kind of the last run. The codes 5 to 7 never occur. -/
inductive ErrKind where
  /-- 0: none -/
  | none
  /-- 1: R172 -/
  | invalidArgument
  /-- 2: R173 -/
  | invalidHeader
  /-- 3: R174 -/
  | truncated
  /-- 4: R175 -/
  | outOfMemory
deriving DecidableEq, Repr

/-- The two values `OUT_CH` can be latched to (R29): 3 or 4 output bytes per pixel. Mark: DEDUCED (log 9); safe. -/
inductive OutChannels where
  /-- 3: R, G, B -/
  | three
  /-- 4: R, G, B, A -/
  | four
deriving DecidableEq, Repr

/-- The image descriptor, CR3 to CR6 (R33). The registers can hold invalid values; the START step checks them. -/
structure Desc where
  /-- `DESC_WIDTH` (CR3) -/
  width : Word
  /-- `DESC_HEIGHT` (CR4) -/
  height : Word
  /-- `DESC_CHANNELS` (CR5) -/
  channels : Byte
  /-- `DESC_COLORSPACE` (CR6) -/
  colorspace : Byte
deriving DecidableEq, Repr

/-- A memory space: the bytes that have been written, as (address, byte) pairs with strictly rising addresses (20 R40).
An unlisted address holds no value (log 1). -/
abbrev Memory := List Host.Cell

/-- Everything the spec gives the machine. -/
structure State where
  /-- `PX`, the previous pixel (R20) -/
  px : Pixel
  /-- `RUN`, the run counter (R22) -/
  run : BitVec 6
  /-- `IDX`, the index table (R26) -/
  idx : IndexTable
  /-- `P`, the stream cursor, the block's program counter (R27) -/
  p : Word
  /-- `PXPOS`, the pixel cursor (R28) -/
  pxpos : Word
  /-- `PXLEN`, the latched byte length of the image (R29) -/
  pxlen : Word
  /-- `OUT_CH`, the latched output channel count of a decode run (R29) -/
  outCh : OutChannels
  /-- `CMD` (CR0, R30): the command the host has written and the block has not yet acted on; 0 when there is none. It
  is write only and reads as 0. Mark: DESIGN CHOICE (log 3). -/
  cmd : BitVec 2
  /-- `PHASE` (CR1, R31) -/
  phase : Phase
  /-- `ERR` (CR2, R32) -/
  err : ErrKind
  /-- `DESC_WIDTH`, `DESC_HEIGHT`, `DESC_CHANNELS`, `DESC_COLORSPACE` (CR3 to CR6, R33) -/
  desc : Desc
  /-- `REQ_CHANNELS` (CR7, R34) -/
  reqChannels : Byte
  /-- `STREAM_SIZE` (CR8, R34) -/
  streamSize : Word
  /-- `OUT_CAP` (CR9, R34) -/
  outCap : Word
  /-- `OUT_LEN` (CR10, R35) -/
  outLen : Word
  /-- the STREAM space (20 R40, R43) -/
  stream : Memory
  /-- the PIXELS space (20 R40, R42) -/
  pixels : Memory
deriving DecidableEq, Repr

/-- The pixel with all four channels 0: what every slot of `IDX` holds after a START step (R26), alpha 0 included. -/
def zeroPixel : Pixel := ⟨0, 0, 0, 0⟩

/-- The index table with every slot (0, 0, 0, 0) (R26). -/
def clearTable : IndexTable := Vector.replicate 64 zeroPixel

/-- The machine right after hardware reset (R39, R190): `PHASE = IDLE`, `ERR = 0`, `OUT_LEN = 0`. Every other register
is unspecified in the spec; the values here are the model's (DESIGN CHOICE, log 2; unsafe). Both memory spaces list
nothing (log 1). -/
def State.reset : State where
  px := zeroPixel
  run := 0
  idx := clearTable
  p := 0
  pxpos := 0
  pxlen := 0
  outCh := .three
  cmd := 0
  phase := .idle
  err := .none
  desc := ⟨0, 0, 0, 0⟩
  reqChannels := 0
  streamSize := 0
  outCap := 0
  outLen := 0
  stream := []
  pixels := []

/-- Why the model's machine stops where the spec's block cannot be. None of these is an exception of the spec: the
spec's four error kinds (R170) are next states with `PHASE = ERROR`. Every one is safe: the model stops. -/
inductive Fault where
  /-- Raised by a slot step or a pixel step that reads a byte no one has loaded (log 1). Safe. A launch that meets the
  premise `input_loaded` (R193) never raises it. -/
  | unloadedRead
  /-- Raised by an op or an emission that would move `P` past 2^32 - 1; `P` never wraps (R27; log 7). Safe; no run
  from a START step raises it. -/
  | streamCursorOverflow
  /-- Raised by a slot step or a pixel step that would move `PXPOS` past 2^32 - 1; `PXPOS` never wraps (R28; log 7).
  Safe; no run from a START step raises it. -/
  | pixelCursorOverflow
  /-- Raised by `step` in a busy state for which R161 gives no step (`PXPOS` beyond `PXLEN`, or a decode run with
  `PXPOS = PXLEN`; log 8). Safe; no run from a START step reaches one. -/
  | noEnabledStep
deriving DecidableEq, Repr

/-- What the model declines to give a meaning, by name. -/
inductive Refusal where
  /-- An instruction whose arm in Machine/Dispatch.lean has no meaning yet. Safe. No arm uses it. -/
  | notModelled (mnemonic : String)
  /-- A START whose launch premise `input_loaded` does not hold: "A launch that does not meet them has no meaning in
  this spec" (R193; R51; 93 U8; log 5). Raised by the START steps. Safe. -/
  | inputNotLoaded
  /-- A host move that the spec says the host never makes (R168; 93 U9; log 13). Raised by Machine/HostPort.lean, never
  by `step`. Safe. -/
  | hostMoveNotAdmitted
deriving DecidableEq, Repr

/-- The outcome of a step, of a meaning and of a host write. -/
abbrev Result := Host.Outcome State Fault Refusal

end Sys2Proof.Machine
end

