-- ==== Sys2Proof/Machine/Operands.lean ====
section
/-!
DEFINITION. The operand forms and the combinational datapath: conversions (spec 00 R10), field biases (30 R68), the
pixel hash (40 R84), the 8-bit delta unit (40 R88 to R90, R94), access to the index table by slot number (10 R26).
-/

namespace Sys2Proof.Machine

/-- `wrap8(v) = v mod 256` (R10, R88). -/
def wrap8 (v : Int) : Byte := BitVec.ofInt 8 v

/-- `to_s8(v) = ((v + 128) mod 256) - 128` (R10). -/
def toS8 (v : Int) : Int := (v + 128) % 256 - 128

/-- `apply(c, d)`: a channel plus an integer, wrapped to 8 bits (R88, R94). -/
def applyDelta (c : Byte) (d : Int) : Byte := wrap8 (c.toNat + d)

/-- The difference a DIFF field carries: the field minus 2 (R65, R68). -/
def diffStep (f : BitVec 2) : Int := (f.toNat : Int) - 2

/-- The green difference a LUMA field carries: the field minus 32 (R66, R68). -/
def lumaGreen (f : BitVec 6) : Int := (f.toNat : Int) - 32

/-- The red or blue step of a LUMA op: `vg - 8 + field`, as an unbounded integer (R66, R119). -/
def lumaSide (vg : Int) (f : BitVec 4) : Int := vg - 8 + f.toNat

/-- `hash(p) = (R·3 + G·5 + B·7 + A·11) mod 64`, channels read as unsigned (R84). -/
def hash (p : Pixel) : BitVec 6 :=
  BitVec.ofNat 6 (p.r.toNat * 3 + p.g.toNat * 5 + p.b.toNat * 7 + p.a.toNat * 11)

/-- The three channel differences of the delta unit, as signed integers. -/
structure Deltas where
  /-- ΔR -/
  r : Int
  /-- ΔG -/
  g : Int
  /-- ΔB -/
  b : Int
deriving DecidableEq, Repr

/-- `delta(cur, prev)`: the channel differences narrowed to signed 8 bits (R89). -/
def delta (cur prev : Pixel) : Deltas where
  r := toS8 ((cur.r.toNat : Int) - prev.r.toNat)
  g := toS8 ((cur.g.toNat : Int) - prev.g.toNat)
  b := toS8 ((cur.b.toNat : Int) - prev.b.toNat)

/-- The red part of `luma_parts`: `to_s8(dR - dG)` (R90). -/
def lumaRed (d : Deltas) : Int := toS8 (d.r - d.g)

/-- The blue part of `luma_parts`: `to_s8(dB - dG)` (R90). -/
def lumaBlue (d : Deltas) : Int := toS8 (d.b - d.g)

/-- The field that carries the signed value `v` with the given bias, in `w` bits (R68, R69). -/
def biasField (w : Nat) (bias v : Int) : BitVec w := BitVec.ofInt w (v + bias)

/-- `IDX[k]` read (R26). -/
def slotGet (t : IndexTable) (k : BitVec 6) : Pixel := t[k.toNat]'k.isLt

/-- `IDX[k] <- q` (R26). -/
def slotSet (t : IndexTable) (k : BitVec 6) (q : Pixel) : IndexTable := t.set k.toNat q k.isLt

/-- The number of output bytes per pixel (R29). -/
def OutChannels.count : OutChannels → Nat
  | .three => 3
  | .four => 4

/-- The bytes of the output write: R, G, B and, with four channels, A (R122). -/
def outBytes (c : OutChannels) (q : Pixel) : List Byte :=
  match c with
  | .three => [q.r, q.g, q.b]
  | .four => [q.r, q.g, q.b, q.a]

/-- `BASELINE`, the previous pixel at stream start (R7, R20). -/
def baseline : Pixel := ⟨0, 0, 0, 255⟩

/-- `MAGIC`, the letters "qoif" (R7, R102). -/
def magicWord : Word := 0x716F6966#32

/-- `PAD_BYTES` (R7). -/
def padBytes : List Byte := [0, 0, 0, 0, 0, 0, 0, 1]

/-- The code of a phase, as CR1 reads (R31). -/
def Phase.code : Phase → BitVec 3
  | .idle => 0
  | .busyEnc => 1
  | .busyDec => 2
  | .done => 3
  | .error => 4

/-- The code of an error kind, as CR2 reads (R171). -/
def ErrKind.code : ErrKind → BitVec 3
  | .none => 0
  | .invalidArgument => 1
  | .invalidHeader => 2
  | .truncated => 3
  | .outOfMemory => 4

end Sys2Proof.Machine
end

