-- ==== Sys2Proof/Machine/Flags.lean ====
section
/-!
DEFINITION. The block has no condition codes (spec 10 R37): no op sets or tests a flag. What stands here are the
predicates the block branches on: pixel equality (40 R87), the range tests of the delta unit (40 R91, R92), the
descriptor check (41 R104), the check of the requested channel count (44 R162), and the busy test (10 R30).
-/

namespace Sys2Proof.Machine

/-- `pix_eq(p, q)`: equality by all four channels (R87). -/
def pixEq (p q : Pixel) : Bool :=
  decide (p.r = q.r) && decide (p.g = q.g) && decide (p.b = q.b) && decide (p.a = q.a)

/-- `in_diff`: all three differences in [-2, +1] (R91). -/
def inDiff (d : Deltas) : Bool :=
  decide (-2 ≤ d.r) && decide (d.r ≤ 1) && decide (-2 ≤ d.g) && decide (d.g ≤ 1) && decide (-2 ≤ d.b) && decide (d.b ≤ 1)

/-- `in_luma(dG, dRG, dBG)`: ΔG in [-32, +31], the two others in [-8, +7] (R92). -/
def inLuma (dG dRG dBG : Int) : Bool :=
  decide (-32 ≤ dG) && decide (dG ≤ 31) && decide (-8 ≤ dRG) && decide (dRG ≤ 7) && decide (-8 ≤ dBG) && decide (dBG ≤ 7)

/-- `valid_desc` (R104): sizes non-zero, 3 or 4 channels, colour-space 0 or 1, and the pixel bound with floor division
(D10). The division is reached only when the width is not 0. -/
def validDesc (d : Desc) : Bool :=
  if d.width = 0 ∨ d.height = 0 then false
  else if d.channels ≠ 3 ∧ d.channels ≠ 4 then false
  else if d.colorspace ≠ 0 ∧ d.colorspace ≠ 1 then false
  else decide (d.height.toNat < 400000000 / d.width.toNat)

/-- `REQ_CHANNELS` is 0, 3 or 4 (R34, R162). -/
def reqChannelsOk (c : Byte) : Bool := decide (c = 0) || decide (c = 3) || decide (c = 4)

/-- "busy" means `PHASE` is `BUSY_ENC` or `BUSY_DEC` (R30). -/
def Phase.busy : Phase → Bool
  | .idle => false
  | .busyEnc => true
  | .busyDec => true
  | .done => false
  | .error => false

end Sys2Proof.Machine
end

