-- ==== Sys2Proof/Machine/Ops.lean ====
section
/-!
DEFINITION. The named operations: over memory (spec 20_memory.md), over registers, over the two cursors, the output
write of a slot (42 R122, R126), the shared shape of a fetched op (42 R112, R121), emission by the encoder (00 R11),
the initial state of a run (10 R39), and taking an exception (60 R176). The block has no return from an exception:
recovery is a new START (60 R179).
-/

namespace Sys2Proof.Machine

/-! Memory -/

/-- The canonical form of a memory: strictly rising addresses, each below 2^32 (R40). -/
abbrev Memory.wf (m : Memory) : Prop :=
  m.Pairwise (fun x y => x.1 < y.1) ∧ ∀ c ∈ m, c.1 < Config.addressSpace

/-- Read one byte; an unlisted address has no value (log 1). -/
def Memory.read : Memory → Nat → Option Byte
  | [], _ => none
  | (x, v) :: m, a => if a = x then some v else Memory.read m a

/-- Write one byte, keeping the addresses strictly rising. -/
def Memory.write : Memory → Nat → Byte → Memory
  | [], a, b => [(a, b)]
  | (x, v) :: m, a, b =>
    if a < x then (a, b) :: (x, v) :: m
    else if a = x then (a, b) :: m
    else (x, v) :: Memory.write m a b

/-- `MemRead(_:a, n)`: `n` bytes in increasing address order (R11). -/
def Memory.readBytes (m : Memory) : Nat → Nat → Option (List Byte)
  | _, 0 => some []
  | a, n + 1 =>
    match m.read a, Memory.readBytes m (a + 1) n with
    | some b, some bs => some (b :: bs)
    | _, _ => none

/-- `MemWrite(_:a, n, v)`: the listed bytes in increasing address order (R11). -/
def Memory.writeBytes (m : Memory) : Nat → List Byte → Memory
  | _, [] => m
  | a, b :: bs => Memory.writeBytes (m.write a b) (a + 1) bs

/-- The end of the stretch of listed addresses that begins at `e`. -/
def Memory.extentFrom : Memory → Nat → Nat
  | [], e => e
  | (x, _) :: m, e => if x = e then Memory.extentFrom m (e + 1) else e

/-- The space holds a byte at every address below `n`. -/
def Memory.covers (m : Memory) (n : Nat) : Bool := decide (n ≤ m.extentFrom 0)

/-- The space holds exactly `n` bytes, at the addresses below `n` and nowhere else: the launch premise `input_loaded`
(R51, R193; log 5). -/
def Memory.holdsExactly (m : Memory) (n : Nat) : Bool := m.covers n && decide (m.length = n)

/-! Registers: one update each -/

/-- `PX <- q`. -/
def State.setPx (q : Pixel) (s : State) : State := { s with px := q }

/-- `RUN <- n`. -/
def State.setRun (n : BitVec 6) (s : State) : State := { s with run := n }

/-- The whole index table replaced. -/
def State.setIdx (t : IndexTable) (s : State) : State := { s with idx := t }

/-- `P <- v`. -/
def State.setP (v : Word) (s : State) : State := { s with p := v }

/-- `PXPOS <- v`. -/
def State.setPxpos (v : Word) (s : State) : State := { s with pxpos := v }

/-- The STREAM space replaced. -/
def State.setStream (m : Memory) (s : State) : State := { s with stream := m }

/-- The PIXELS space replaced. -/
def State.setPixels (m : Memory) (s : State) : State := { s with pixels := m }

/-- The pending command replaced. -/
def State.setCmd (c : BitVec 2) (s : State) : State := { s with cmd := c }

/-- The end of a successful run: `OUT_LEN <- n`, `PHASE <- DONE` (R126, R147). The
working registers keep their last values (log 11). -/
def State.finish (n : Word) (s : State) : State := { s with outLen := n, phase := .done }

/-- `raise E` (R176): `ERR <- code(E)`, `PHASE <- ERROR`, nothing else is written. The block's one way of taking an
exception. -/
def State.raise (e : ErrKind) (s : State) : State := { s with err := e, phase := .error }

/-- `IDX[hash(PX)] <- PX`, the decoder's index update (R121). -/
def State.storeIndex (s : State) : State := s.setIdx (slotSet s.idx (hash s.px) s.px)

/-- The working registers as every successful START step leaves them: `PX` the baseline, `RUN` 0, the table cleared,
`P` 14, `PXPOS` 0, `ERR` 0 (R39, R111, R131, R191). -/
def State.startWork (s : State) : State :=
  { s with px := baseline, run := 0, idx := clearTable, p := 14, pxpos := 0, err := .none }

/-! Sequencing and the cursors -/

/-- Go on with `f` when `r` is a next state. -/
def andThen (r : Result) (f : State → Result) : Result :=
  match r with
  | .next s => f s
  | .fault e => .fault e
  | .refused e => .refused e

/-- `P <- P + n`; `P` never wraps (R27; log 7). -/
def advanceP (n : Nat) (s : State) : Result :=
  if s.p.toNat + n < Config.addressSpace then .next (s.setP (s.p + BitVec.ofNat 32 n))
  else .fault .streamCursorOverflow

/-- `PXPOS <- PXPOS + n`; `PXPOS` never wraps (R28; log 7). -/
def advancePxpos (n : Nat) (s : State) : Result :=
  if s.pxpos.toNat + n < Config.addressSpace then .next (s.setPxpos (s.pxpos + BitVec.ofNat 32 n))
  else .fault .pixelCursorOverflow

/-! The decoder's shared operations -/

/-- `MemWrite(P:PXPOS, OUT_CH, out)` (R122). -/
def State.writeOut (s : State) : State :=
  s.setPixels (s.pixels.writeBytes s.pxpos.toNat (outBytes s.outCh s.px))

/-- When `PXPOS = PXLEN` the run ends: `OUT_LEN <- PXLEN`, `PHASE <- DONE` (R126). -/
def State.endIfFull (s : State) : State := if s.pxpos = s.pxlen then s.finish s.pxlen else s

/-- The tail of every slot step: output write, `PXPOS <- PXPOS + OUT_CH`, termination (R112, R122, R126). -/
def outputSlot (s : State) : Result :=
  andThen (advancePxpos s.outCh.count s.writeOut) fun t => .next t.endIfFull

/-- A slot step that fetched an op of `n` bytes (R112): `P` moves past the op (R125), the op's own effect `f` on `PX`
or `RUN`, the index store when `store` holds (R121), the tail. -/
def opSlot (n : Nat) (store : Bool) (f : State → State) (s : State) : Result :=
  andThen (advanceP n s) fun t => outputSlot (if store then (f t).storeIndex else f t)

/-! The encoder's shared operations -/

/-- `emit(b0, b1, …)`: the bytes at `S:P`, then `P` past them (R11). -/
def emitBytes (bs : List Byte) (s : State) : Result :=
  advanceP bs.length (s.setStream (s.stream.writeBytes s.p.toNat bs))

end Sys2Proof.Machine
end

