-- ==== Sys2Proof/Machine/Header.lean ====
section
/-!
DEFINITION. Big-endian 32-bit byte I/O and the header codec (spec 40 R80, R81; 41 R100, R101).
-/

namespace Sys2Proof.Machine

/-- The four bytes of a word, high byte first (R80). -/
def wordBytes (v : Word) : List Byte :=
  [v.extractLsb' 24 8, v.extractLsb' 16 8, v.extractLsb' 8 8, v.extractLsb' 0 8]

/-- `write32(offset, value)`: big-endian; the new space and the advanced offset (R80). -/
def write32 (m : Memory) (offset : Nat) (value : Word) : Memory × Nat :=
  (m.writeBytes offset (wordBytes value), offset + 4)

/-- `read32(offset)`: big-endian and unsigned; the value and the advanced offset (R81). -/
def read32 (m : Memory) (offset : Nat) : Option (Word × Nat) :=
  match m.readBytes offset 4 with
  | some [b0, b1, b2, b3] => some (b0 ++ b1 ++ b2 ++ b3, offset + 4)
  | _ => none

/-- `write_header()` without its last line `P <- 14`, which `State.startWork` makes: 14 bytes at STREAM addresses 0 to
13 (R100). -/
def writeHeader (d : Desc) (m : Memory) : Memory :=
  let (m, o) := write32 m 0 magicWord
  let (m, o) := write32 m o d.width
  let (m, _) := write32 m o d.height
  let m := m.writeBytes 12 [d.channels]
  m.writeBytes 13 [d.colorspace]

/-- `read_header()`: the magic and the four descriptor fields, not yet validated (R101). -/
def readHeader (m : Memory) : Option (Word × Desc) :=
  match read32 m 0 with
  | none => none
  | some (magic, o) =>
    match read32 m o with
    | none => none
    | some (width, o) =>
      match read32 m o with
      | none => none
      | some (height, _) =>
        match m.read 12, m.read 13 with
        | some channels, some colorspace => some (magic, ⟨width, height, channels, colorspace⟩)
        | _, _ => none

end Sys2Proof.Machine
end

