-- ==== Sys2Proof/Machine/Commands.lean ====
section
/-!
DEFINITION. The two commands: the START steps with their checks in order (spec 44 R162, R164; 60 R177) and the launch
premises (70 R193).
-/

namespace Sys2Proof.Machine

/-- The launch premise `phase_quiescent` (R193): `PHASE` is `IDLE`, `DONE` or `ERROR`. -/
def phaseQuiescent (s : State) : Bool := !s.phase.busy

/-- The launch premise `output_writable` (R193): the output space admits `OUT_CAP` bytes. Every address of a space of
this model can be written (log 6). -/
def outputWritable (s : State) : Bool := decide (s.outCap.toNat ≤ Config.addressSpace)

/-- `width · height`, as a mathematical integer (R97). -/
def Desc.pixelCount (d : Desc) : Nat := d.width.toNat * d.height.toNat

/-- `OUT_CH` (R29): `REQ_CHANNELS`, or the header's channel count when that is 0. -/
def outChannels (req channels : Byte) : OutChannels :=
  if (if req = 0 then channels else req) = 4 then .four else .three

/-- A START_DECODE step that has passed every check (R162). -/
def beginDecode (d : Desc) (s : State) : State :=
  let och := outChannels s.reqChannels d.channels
  { s.startWork with
    desc := d, outCh := och, pxlen := BitVec.ofNat 32 (d.pixelCount * och.count), phase := .busyDec }

/-- The checks of START_DECODE on the header, and the capacity check (R162, R163, R173, R175). -/
def checkHeader (magic : Word) (d : Desc) (s : State) : State :=
  if magic ≠ magicWord ∨ validDesc d = false then s.raise .invalidHeader
  else if s.outCap.toNat < d.pixelCount * (outChannels s.reqChannels d.channels).count then s.raise .outOfMemory
  else beginDecode d s

/-- `start_decode()` (R162): requested channels, length, header, capacity. The launch premise `input_loaded` is looked at
where the step first reads memory; a launch without it, whether a byte is missing or one is too many, is refused (R51,
R193; log 5). -/
def startDecode (s : State) : Result :=
  if reqChannelsOk s.reqChannels = false then .next (s.raise .invalidArgument)
  else if s.streamSize.toNat < 22 then .next (s.raise .truncated)
  else if s.stream.holdsExactly s.streamSize.toNat = false then .refused .inputNotLoaded
  else
    match readHeader s.stream with
    | some (magic, d) => .next (checkHeader magic d s)
    | none => .fault .unloadedRead

/-- The bytes an encode run may need: `width · height · (channels + 1) + 22` (R163, R164). -/
def Desc.encodeNeed (d : Desc) : Nat := d.pixelCount * (d.channels.toNat + 1) + 22

/-- A START_ENCODE step that has passed every check: the header is written, the working registers are set (R164). -/
def beginEncode (s : State) : State :=
  { s.startWork with
    stream := writeHeader s.desc s.stream,
    pxlen := BitVec.ofNat 32 (s.desc.pixelCount * s.desc.channels.toNat), phase := .busyEnc }

/-- `start_encode()` (R164): descriptor, capacity; then the launch premise `input_loaded` (R51, R193;
log 5). -/
def startEncode (s : State) : Result :=
  if validDesc s.desc = false then .next (s.raise .invalidArgument)
  else if s.outCap.toNat < s.desc.encodeNeed then .next (s.raise .outOfMemory)
  else if s.pixels.holdsExactly (s.desc.pixelCount * s.desc.channels.toNat) = false then .refused .inputNotLoaded
  else .next (beginEncode s)

/-- A quiescent phase (R161, R166): a pending command is taken by its START step; without one the block takes no step
(log 4). -/
def command (s : State) : Result :=
  if s.cmd = 1 then startEncode (s.setCmd 0)
  else if s.cmd = 2 then startDecode (s.setCmd 0)
  else .next s

end Sys2Proof.Machine
end

