-- ==== Sys2Proof/Syntax.lean ====
section
/-!
DEFINITION. The op-code alphabet (spec 30 R61 to R67, opcode_table.json): one constructor per row, with the op's
fields as the unsigned numbers the encoding carries (R68: no field is sign extended; the biases are applied by the
meanings in Machine/).
-/

namespace Sys2Proof

/-- The six ops of QOI-CORE. -/
inductive Instr where
  /-- `QOI_OP_RGB` (R62): three payload bytes. -/
  | rgb (r g b : Byte)
  /-- `QOI_OP_RGBA` (R63): four payload bytes. -/
  | rgba (r g b a : Byte)
  /-- `QOI_OP_INDEX` (R64): the slot number `x`. -/
  | index (x : BitVec 6)
  /-- `QOI_OP_DIFF` (R65): the fields `rr`, `gg`, `bb`, bias 2. -/
  | diff (rr gg bb : BitVec 2)
  /-- `QOI_OP_LUMA` (R66): the fields `g` (bias 32), `r` and `b` (bias 8). -/
  | luma (g : BitVec 6) (r b : BitVec 4)
  /-- `QOI_OP_RUN` (R67): the field `x`, run length minus one, 0 to 61. -/
  | run (x : BitVec 6)
deriving DecidableEq, Repr

end Sys2Proof
end

