-- ==== Sys2Proof/WellFormed.lean ====
section
/-!
DEFINITION. Which terms of `Instr` are ops the alphabet can express. Field widths are in the types; the one further
condition is that a RUN field is 0 to 61, because 62 and 63 are the RGB and RGBA tags (spec 30 R67, R74).
-/

namespace Sys2Proof

/-- The op can be expressed: a RUN field is at most 61 (R67, R74). -/
def Instr.wellFormed : Instr → Bool
  | .rgb _ _ _ => true
  | .rgba _ _ _ _ => true
  | .index _ => true
  | .diff _ _ _ => true
  | .luma _ _ _ => true
  | .run x => decide (x.toNat ≤ 61)

end Sys2Proof
end

