-- ==== Sys2Proof/Decode.lean ====
section
/-!
DEFINITION. The decoder and the encoder of single ops (spec 30 R61 to R73). The decoder is total on byte lists: every
first byte selects exactly one op (R72), so the only refusals are a missing first byte and a missing payload. The
encoder writes the bytes of an op from the same layouts (R61, R69); the encoder rules of Machine/Encoder.lean emit
through it.
-/

namespace Sys2Proof

/-- Why a byte list does not begin with an op. No byte VALUE is ever refused (R72). -/
inductive DecodeError where
  /-- there is no first byte -/
  | noFirstByte
  /-- an RGB tag with fewer than three payload bytes after it -/
  | rgbPayloadMissing
  /-- an RGBA tag with fewer than four payload bytes after it -/
  | rgbaPayloadMissing
  /-- a LUMA first byte with no second byte after it -/
  | lumaByteMissing
deriving DecidableEq, Repr

/-- `b[7:6]`, the two-bit tag of a first byte (R61). -/
def tagOf (b : Byte) : BitVec 2 := b.extractLsb' 6 2

/-- `b[5:0]`, the field of INDEX, LUMA green and RUN (R64, R66, R67, R69). -/
def lowSix (b : Byte) : BitVec 6 := b.extractLsb' 0 6

/-- The length in bytes of the op that the first byte `b` selects, from that byte alone (R72, R73). -/
def opLength (b : Byte) : Nat :=
  if b = 0xFE#8 then 4
  else if b = 0xFF#8 then 5
  else if tagOf b = 0b10#2 then 2
  else 1

/-- The one-byte ops and the first byte of the rest: dispatch on the two-bit tag, after the two full-byte tags have
been excluded (R71). -/
def decodeShort (b1 : Byte) (rest : List Byte) : Except DecodeError (Instr × List Byte) :=
  if tagOf b1 = 0b00#2 then .ok (.index (lowSix b1), rest)
  else if tagOf b1 = 0b01#2 then
    .ok (.diff (b1.extractLsb' 4 2) (b1.extractLsb' 2 2) (b1.extractLsb' 0 2), rest)
  else if tagOf b1 = 0b10#2 then
    match rest with
    | b2 :: rest => .ok (.luma (lowSix b1) (b2.extractLsb' 4 4) (b2.extractLsb' 0 4), rest)
    | [] => .error .lumaByteMissing
  else .ok (.run (lowSix b1), rest)

/-- Read one op from the front of a byte list and give the rest: the two full-byte tags are tested first, then the
two-bit tag (R71, R201). -/
def decode : List Byte → Except DecodeError (Instr × List Byte)
  | [] => .error .noFirstByte
  | b1 :: rest =>
    if b1 = 0xFE#8 then
      match rest with
      | r :: g :: b :: rest => .ok (.rgb r g b, rest)
      | _ => .error .rgbPayloadMissing
    else if b1 = 0xFF#8 then
      match rest with
      | r :: g :: b :: a :: rest => .ok (.rgba r g b a, rest)
      | _ => .error .rgbaPayloadMissing
    else decodeShort b1 rest

/-- The bytes of an op, first byte first (R62 to R67, R69). -/
def encode : Instr → List Byte
  | .rgb r g b => [0xFE#8, r, g, b]
  | .rgba r g b a => [0xFF#8, r, g, b, a]
  | .index x => [0b00#2 ++ x]
  | .diff rr gg bb => [0b01#2 ++ rr ++ gg ++ bb]
  | .luma g r b => [0b10#2 ++ g, r ++ b]
  | .run x => [0b11#2 ++ x]

/-- The five bytes that an instruction numbered as opcode_table.json numbers it occupies, first byte in the least
significant bits; every bit above `nbits` is 0. -/
def tableBytes (nbits w : Nat) : List Byte :=
  let v := w % 2 ^ nbits
  [BitVec.ofNat 8 v, BitVec.ofNat 8 (v / 256), BitVec.ofNat 8 (v / 65536), BitVec.ofNat 8 (v / 16777216),
    BitVec.ofNat 8 (v / 4294967296)]

/-- What the decoder reads from an instruction given as one number (the host's question, see Machine/Step.lean
`State.withFetchWord`). -/
def decodeTableWord (nbits w : Nat) : Option Instr :=
  match decode (tableBytes nbits w) with
  | .ok (i, _) => some i
  | .error _ => none

end Sys2Proof
end

