-- ==== Sys2Proof/Machine/Encoder.lean ====
section
/-!
DEFINITION. The encoder: the pixel step with its run-length encoder and per-pixel multiplexer (spec 43 R132 to R144), the
six ops as emitted, and the padding step (R147). Ops are emitted through `encode` of Decode.lean.
-/

namespace Sys2Proof.Machine

/-- The fetch of `CUR` (R133): three bytes at `P:PXPOS`; alpha from the fourth byte with 4 channels, from `PX.A`
otherwise. `none` when a byte has never been loaded (log 1). -/
def fetchCur (s : State) : Option Pixel :=
  match s.pixels.readBytes s.pxpos.toNat 3 with
  | some [r, g, b] =>
    if s.desc.channels = 4 then
      match s.pixels.read (s.pxpos.toNat + 3) with
      | some a => some ⟨r, g, b, a⟩
      | none => none
    else some ⟨r, g, b, s.px.a⟩
  | _ => none

/-- The last-pixel test `PXPOS = PXLEN - DESC_CHANNELS` (R144). -/
def isLast (s : State) : Bool := decide (s.pxpos.toNat + s.desc.channels.toNat = s.pxlen.toNat)

/-- The DIFF op that carries the differences `d` (R139). -/
def diffOp (d : Deltas) : Instr := .diff (biasField 2 2 d.r) (biasField 2 2 d.g) (biasField 2 2 d.b)

/-- The LUMA op that carries the differences `d` (R140). -/
def lumaOp (d : Deltas) : Instr :=
  .luma (biasField 6 32 d.g) (biasField 4 8 (lumaRed d)) (biasField 4 8 (lumaBlue d))

/-- The delta and literal part of the multiplexer, alpha unchanged: DIFF if it fits, else LUMA if it fits, else RGB
(R139 to R141). -/
def deltaOp (d : Deltas) (cur : Pixel) : Instr :=
  if inDiff d then diffOp d
  else if inLuma d.g (lumaRed d) (lumaBlue d) then lumaOp d
  else .rgb cur.r cur.g cur.b

/-- The multiplexer for a pixel that differs from `PX` (R136), a function of `CUR`, `PX` and `IDX[hash(CUR)]` only:
INDEX on an exact hit (R137); else the delta cascade when alpha is unchanged; else RGBA (R142). -/
def muxOp (px slot cur : Pixel) : Instr :=
  if pixEq slot cur then .index (hash cur)
  else if cur.a = px.a then deltaOp (delta cur px) cur
  else .rgba cur.r cur.g cur.b cur.a

/-- The RUN op that flushes a count of `n` pixels, 1 to 62 (R135). -/
def runOp (n : BitVec 6) : Instr := .run (n - 1)

/-- A pixel equal to `PX` flushes the run in its own step: the count reaches 62, or it is the last pixel (R134). -/
def flushNow (s : State) : Bool := decide (s.run + 1 = 62) || isLast s

/-- The ops a pixel step emits for `cur`, in order: the flushed run before the pixel's own op (R132, R134 to R142,
R198; log 16). -/
def encOps (cur : Pixel) (s : State) : List Instr :=
  if pixEq cur s.px then
    if flushNow s then [runOp (s.run + 1)] else []
  else (if s.run = 0 then [] else [runOp s.run]) ++ [muxOp s.px (slotGet s.idx (hash cur)) cur]

/-- `RUN` after the pixel step (R134, R135). -/
def encRun (cur : Pixel) (s : State) : BitVec 6 :=
  if pixEq cur s.px then (if flushNow s then 0 else s.run + 1) else 0

/-- `IDX` after the pixel step: `CUR` is stored when it differs from `PX` and the compare with its slot fails (R138,
R196). -/
def encIdx (cur : Pixel) (s : State) : IndexTable :=
  if pixEq cur s.px then s.idx
  else if pixEq (slotGet s.idx (hash cur)) cur then s.idx
  else slotSet s.idx (hash cur) cur

/-- `enc_pixel()` (R132): `PX <- CUR` comes last and uses nothing of the new state (R143, R197). -/
def encPixel (s : State) : Result :=
  match fetchCur s with
  | none => .fault .unloadedRead
  | some cur =>
    andThen (emitBytes ((encOps cur s).flatMap encode) s) fun t =>
      advancePxpos s.desc.channels.toNat (((t.setRun (encRun cur s)).setIdx (encIdx cur s)).setPx cur)

/-- `enc_pad()` (R147): the padding sentinel, `OUT_LEN <- P`, `PHASE <- DONE`. -/
def encPad (s : State) : Result :=
  andThen (emitBytes padBytes s) fun t => .next (t.finish t.p)

/-- The enabled step of an encode run (R161). -/
def encStep (s : State) : Result :=
  if s.pxpos.toNat < s.pxlen.toNat then encPixel s
  else if s.pxpos = s.pxlen then encPad s
  else .fault .noEnabledStep

end Sys2Proof.Machine
end

