-- ==== Sys2Proof/Machine/Delta.lean ====
section
/-!
DEFINITION. The delta ops as the decoder executes them (spec 42 R118, R119; 40 R94, R96).
-/

namespace Sys2Proof.Machine

/-- Red, green and blue each moved by its own step, wrapped to 8 bits per lane; alpha kept (R94, R96). -/
def movePixel (q : Pixel) (dr dg db : Int) : Pixel :=
  ⟨applyDelta q.r dr, applyDelta q.g dg, applyDelta q.b db, q.a⟩

/-- `QOI_OP_DIFF` (R118): each channel moves by its field minus 2. -/
def execDiff (rr gg bb : BitVec 2) (s : State) : Result :=
  opSlot 1 true (fun t => t.setPx (movePixel t.px (diffStep rr) (diffStep gg) (diffStep bb))) s

/-- `QOI_OP_LUMA` (R119): green moves by `vg = g - 32`, red and blue by `vg - 8` plus their fields. -/
def execLuma (g : BitVec 6) (r b : BitVec 4) (s : State) : Result :=
  opSlot 2 true
    (fun t => t.setPx (movePixel t.px (lumaSide (lumaGreen g) r) (lumaGreen g) (lumaSide (lumaGreen g) b))) s

end Sys2Proof.Machine
end

