-- ==== Sys2Proof/Machine/Index.lean ====
section
/-!
DEFINITION. The index op as the decoder executes it (spec 42 R117).
-/

namespace Sys2Proof.Machine

/-- `QOI_OP_INDEX` (R117): `PX <- IDX[x]`, all four channels; the slot is read before the index update writes (R200). -/
def execIndex (x : BitVec 6) (s : State) : Result :=
  opSlot 1 true (fun t => t.setPx (slotGet t.idx x)) s

end Sys2Proof.Machine
end

