-- ==== Sys2Proof/Machine/Literals.lean ====
section
/-!
DEFINITION. The literal ops as the decoder executes them (spec 42 R115, R116).
-/

namespace Sys2Proof.Machine

/-- `QOI_OP_RGB` (R115): red, green and blue from the payload, `PX.A` keeps its value. -/
def execRgb (r g b : Byte) (s : State) : Result :=
  opSlot 4 true (fun t => t.setPx ⟨r, g, b, t.px.a⟩) s

/-- `QOI_OP_RGBA` (R116): all four channels from the payload. -/
def execRgba (r g b a : Byte) (s : State) : Result :=
  opSlot 5 true (fun t => t.setPx ⟨r, g, b, a⟩) s

end Sys2Proof.Machine
end

