-- ==== Sys2Proof/Machine/RunLength.lean ====
section
/-!
DEFINITION. The run-length decoder: the RUN op (spec 42 R120) and the two slots that fetch no op, the run-repeat slot
(R114) and the exhausted-stream slot (R113).
-/

namespace Sys2Proof.Machine

/-- `QOI_OP_RUN` (R120): `RUN <- x`, `PX` keeps its value; this slot outputs it once. A field of 62 or 63 is
not well formed and is loaded like any other (log 19). The index store after it follows
`DEC_IDX_ON_RUN` (R121, 90 C1). -/
def execRun (x : BitVec 6) (s : State) : Result :=
  opSlot 1 Config.decIdxOnRun (fun t => t.setRun x) s

/-- The run-repeat slot (R114): `RUN <- RUN - 1`, no byte read, no index update. -/
def repeatSlot (s : State) : Result := outputSlot (s.setRun (s.run - 1))

/-- The exhausted-stream slot (R113): nothing is read and nothing but the output changes. -/
def exhaustedSlot (s : State) : Result := outputSlot s

end Sys2Proof.Machine
end

