-- ==== Sys2Proof/Machine/Dispatch.lean ====
section
/-!
DEFINITION. The op-code dispatcher (spec 42 R112): one arm per op. `exec i s` is the whole slot step in which the decoder
has fetched the op `i` at `P` (log 10).
-/

namespace Sys2Proof.Machine

def exec (i : Instr) (s : State) : Host.Outcome State Fault Refusal :=
  match i with
  | .rgb r g b => Sys2Proof.Machine.execRgb r g b s
  | .rgba r g b a => Sys2Proof.Machine.execRgba r g b a s
  | .index x => Sys2Proof.Machine.execIndex x s
  | .diff rr gg bb => Sys2Proof.Machine.execDiff rr gg bb s
  | .luma g r b => Sys2Proof.Machine.execLuma g r b s
  | .run x => Sys2Proof.Machine.execRun x s

end Sys2Proof.Machine
end

