-- ==== Sys2Proof/Machine/Slot.lean ====
section
/-!
DEFINITION. Fetching an op's bytes and the decoder's slot step (spec 42 R112), and the placing of one op where the next
slot step fetches it (used by Machine/Step.lean `State.withFetchWord`).
-/

namespace Sys2Proof.Machine

/-- Fetch the op at `P`: the first byte, then as many bytes as it calls for (R73, R112). `none` when one of them has
never been loaded (log 1). -/
def fetchOp (s : State) : Option Instr :=
  match s.stream.read s.p.toNat with
  | none => none
  | some b1 =>
    match s.stream.readBytes s.p.toNat (opLength b1) with
    | none => none
    | some bs =>
      match decode bs with
      | .ok (i, _) => some i
      | .error _ => none

/-- The padding guard `P < STREAM_SIZE - 8`, on mathematical integers (R112, D22). -/
def bodyLeft (s : State) : Bool := decide (s.p.toNat + 8 < s.streamSize.toNat)

/-- `dec_slot()` (R112): `RUN > 0` is tested before the guard, the guard before the first byte (R202). -/
def decSlot (s : State) : Result :=
  if s.pxpos.toNat < s.pxlen.toNat then
    if s.run ≠ 0 then repeatSlot s
    else if bodyLeft s then
      match fetchOp s with
      | some i => exec i s
      | none => .fault .unloadedRead
    else exhaustedSlot s
  else .fault .noEnabledStep

/-- A decode run about to fetch its first op, whose five bytes are `bs`, at STREAM address 14 of a 27-byte stream, with
two four-byte slots still to fill. It sets what the fetch needs and nothing else (log 14). -/
def placeOp (bs : List Byte) (s : State) : State :=
  { s with
    phase := .busyDec, run := 0, p := 14, streamSize := 27, pxpos := 0, pxlen := 8, outCh := .four,
    stream := s.stream.writeBytes 14 bs }

end Sys2Proof.Machine
end

