-- ==== Sys2Proof/Machine/Step.lean ====
section
/-!
DEFINITION. One step of the block (spec 44 R161), and the host's question of which instruction a step fetches.
-/

namespace Sys2Proof.Machine

/-- The one enabled step (R161): a slot step, an encoder step, or the START step of a pending command. -/
def step (s : State) : Host.Outcome State Fault Refusal :=
  match s.phase with
  | .idle => command s
  | .busyEnc => encStep s
  | .busyDec => decSlot s
  | .done => command s
  | .error => command s

/-- The state `s` with one instruction, numbered as opcode_table.json numbers it, placed where the next step fetches its
op (log 14). -/
def State.withFetchWord (s : State) (nbits w : Nat) : State := placeOp (tableBytes nbits w) s

end Sys2Proof.Machine
end

