-- ==== Sys2Proof/Machine/HostPort.lean ====
section
/-!
DEFINITION. The host's side of the block: the moves of the outside world (spec 10 R30, 44 R166 to R168, 20 R54, 70 R190).
None of them is a step of the block; `step` never calls this file. A move the spec says the host never makes is refused
by name (R168; 93 U9; log 13).
-/

namespace Sys2Proof.Machine

/-- The control registers (R30). -/
inductive HostReg where
  /-- CR0 `CMD` -/
  | cmd
  /-- CR1 `PHASE` -/
  | phase
  /-- CR2 `ERR` -/
  | err
  /-- CR3 `DESC_WIDTH` -/
  | descWidth
  /-- CR4 `DESC_HEIGHT` -/
  | descHeight
  /-- CR5 `DESC_CHANNELS` -/
  | descChannels
  /-- CR6 `DESC_COLORSPACE` -/
  | descColorspace
  /-- CR7 `REQ_CHANNELS` -/
  | reqChannels
  /-- CR8 `STREAM_SIZE` -/
  | streamSize
  /-- CR9 `OUT_CAP` -/
  | outCap
  /-- CR10 `OUT_LEN` -/
  | outLen
deriving DecidableEq, Repr

/-- The register that a number names (R30). -/
def hostRegOf : Nat → Option HostReg
  | 0 => some .cmd
  | 1 => some .phase
  | 2 => some .err
  | 3 => some .descWidth
  | 4 => some .descHeight
  | 5 => some .descChannels
  | 6 => some .descColorspace
  | 7 => some .reqChannels
  | 8 => some .streamSize
  | 9 => some .outCap
  | 10 => some .outLen
  | _ => none

/-- What the host can write: each writable register with a value of its own width (93 U6), and a byte of either space.
`PHASE`, `ERR` and `OUT_LEN` are read only (R30), so no move writes them. Loading the input space exactly (R51, R193)
may take a fresh buffer for it; that move is the model's (log 20). -/
inductive HostWrite where
  /-- CR0 -/
  | cmd (v : BitVec 2)
  /-- CR3 -/
  | descWidth (v : Word)
  /-- CR4 -/
  | descHeight (v : Word)
  /-- CR5 -/
  | descChannels (v : Byte)
  /-- CR6 -/
  | descColorspace (v : Byte)
  /-- CR7 -/
  | reqChannels (v : Byte)
  /-- CR8 -/
  | streamSize (v : Word)
  /-- CR9 -/
  | outCap (v : Word)
  /-- load a byte of the STREAM space -/
  | streamByte (a : Word) (v : Byte)
  /-- load a byte of the PIXELS space -/
  | pixelByte (a : Word) (v : Byte)
  /-- put a fresh buffer, into which nothing has been loaded, in the place of the STREAM space (log 20) -/
  | freshStream
  /-- the same for the PIXELS space (log 20) -/
  | freshPixels
deriving DecidableEq, Repr

/-- The host may touch registers and memory: the block is not busy and no command is waiting to be taken (R54, R168;
log 3). -/
def hostMayMove (s : State) : Bool := phaseQuiescent s && decide (s.cmd = 0)

/-- `CMD` written with `v`: 1 and 2 ask for a START step; 0 and 3 have no effect in any phase, and no value has an effect
while the block is busy (R160, R166; 93 U7; log 13) or while a command waits to be taken (log 3). -/
def writeCmd (v : BitVec 2) (s : State) : State :=
  if hostMayMove s && (decide (v = 1) || decide (v = 2)) then s.setCmd v else s

/-- A host write, admitted: the register, the byte or the space takes the value and nothing else changes (R30). -/
def applyWrite (w : HostWrite) (s : State) : State :=
  match w with
  | .cmd v => writeCmd v s
  | .descWidth v => { s with desc := { s.desc with width := v } }
  | .descHeight v => { s with desc := { s.desc with height := v } }
  | .descChannels v => { s with desc := { s.desc with channels := v } }
  | .descColorspace v => { s with desc := { s.desc with colorspace := v } }
  | .reqChannels v => { s with reqChannels := v }
  | .streamSize v => { s with streamSize := v }
  | .outCap v => { s with outCap := v }
  | .streamByte a v => s.setStream (s.stream.write a.toNat v)
  | .pixelByte a v => s.setPixels (s.pixels.write a.toNat v)
  | .freshStream => s.setStream []
  | .freshPixels => s.setPixels []

/-- A host write (R30, R168). -/
def hostWrite (w : HostWrite) (s : State) : Result :=
  match w with
  | .cmd v => .next (writeCmd v s)
  | w => if hostMayMove s then .next (applyWrite w s) else .refused .hostMoveNotAdmitted

/-- The value a control register reads as, zero-extended to 32 bits; `CMD` reads as 0 (R30). -/
def regValue (r : HostReg) (s : State) : Word :=
  match r with
  | .cmd => 0
  | .phase => s.phase.code.setWidth 32
  | .err => s.err.code.setWidth 32
  | .descWidth => s.desc.width
  | .descHeight => s.desc.height
  | .descChannels => s.desc.channels.setWidth 32
  | .descColorspace => s.desc.colorspace.setWidth 32
  | .reqChannels => s.reqChannels.setWidth 32
  | .streamSize => s.streamSize
  | .outCap => s.outCap
  | .outLen => s.outLen

/-- May the host read this register now? `PHASE` and `ERR` while the block is busy and, when it is not, unless a command
is waiting; `OUT_LEN` only in `DONE`; `DESC_*` not in `ERROR`; `REQ_CHANNELS`, `STREAM_SIZE` and `OUT_CAP` in a quiescent
phase (R54, R168, R178; 93 U3, U9; log 17). `CMD` at any time, also while the block is busy or a command waits: R30 gives
the read its value 0, but R167 and D19 leave the host only reads of `PHASE` and `ERR` then, so admitting it is the model's
choice. Mark: DESIGN CHOICE (log 22); safe. -/
def mayRead (r : HostReg) (s : State) : Bool :=
  match r with
  | .cmd => true
  | .phase => decide (s.cmd = 0) || s.phase.busy
  | .err => decide (s.cmd = 0) || s.phase.busy
  | .descWidth => hostMayMove s && decide (s.phase ≠ .error)
  | .descHeight => hostMayMove s && decide (s.phase ≠ .error)
  | .descChannels => hostMayMove s && decide (s.phase ≠ .error)
  | .descColorspace => hostMayMove s && decide (s.phase ≠ .error)
  | .reqChannels => hostMayMove s
  | .streamSize => hostMayMove s
  | .outCap => hostMayMove s
  | .outLen => hostMayMove s && decide (s.phase = .done)

/-- A host read of a control register. -/
def hostReadReg (r : HostReg) (s : State) : Except Refusal Word :=
  if mayRead r s then .ok (regValue r s) else .error .hostMoveNotAdmitted

/-- A host read of a STREAM byte, in `IDLE` or `DONE` only; `none` is a byte no one has written (R54, R178; log 17). -/
def hostReadStream (a : Word) (s : State) : Except Refusal (Option Byte) :=
  if hostMayMove s && decide (s.phase ≠ .error) then .ok (s.stream.read a.toNat) else .error .hostMoveNotAdmitted

/-- A host read of a PIXELS byte, under the same condition. -/
def hostReadPixels (a : Word) (s : State) : Except Refusal (Option Byte) :=
  if hostMayMove s && decide (s.phase ≠ .error) then .ok (s.pixels.read a.toNat) else .error .hostMoveNotAdmitted

/-- Hardware reset, in any phase (R161, R190): `PHASE = IDLE`, `ERR = 0`, `OUT_LEN = 0`, no command waiting. Everything
else is unspecified after it, so it is the free argument `any`, which nothing constrains (93 U1, U4; log 12). -/
def hardwareReset (any : State) : State := { any with phase := .idle, err := .none, outLen := 0, cmd := 0 }

end Sys2Proof.Machine
end

