-- ==== Sys2Proof/Safety.lean ====
section
/-!
DEFINITION. What counts as a safe run, in the terms the statements use: what one slot step leaves (spec 42 R112, R121,
R122, R126), what it does not touch, and the invariants of the machine between steps (10 R22, R32; 20 R40; 42 R129; the
bounds of 20 R49, R50, 42 R124 and 43 R145, R146).
-/

namespace Sys2Proof.Machine

/-! What one decoder slot leaves -/

/-- There is room for the slot's bytes below 2^32, so that `PXPOS` does not wrap (R28). -/
def SlotRoom (s : State) : Prop := s.pxpos.toNat + s.outCh.count < 4294967296

/-- There is room for an op of `n` bytes below 2^32, so that `P` does not wrap (R27), and for the slot's output. -/
def OpRoom (n : Nat) (s : State) : Prop := s.p.toNat + n < 4294967296 ∧ SlotRoom s

/-- The output write (R122): with `OUT_CH = 4` the bytes R, G, B, A of `q` stand at `PXPOS` to `PXPOS + 3`, with
`OUT_CH = 3` the bytes R, G, B at `PXPOS` to `PXPOS + 2`, and `PXPOS` has moved past them. -/
def OutputWritten (q : Pixel) (s t : State) : Prop :=
  match s.outCh with
  | .three => t.pixels.readBytes s.pxpos.toNat 3 = some [q.r, q.g, q.b] ∧ t.pxpos.toNat = s.pxpos.toNat + 3
  | .four => t.pixels.readBytes s.pxpos.toNat 4 = some [q.r, q.g, q.b, q.a] ∧ t.pxpos.toNat = s.pxpos.toNat + 4

/-- Termination (R126): the slot that makes `PXPOS = PXLEN` sets `OUT_LEN <- PXLEN` and `PHASE <- DONE`; any other slot
leaves both alone. -/
def SlotEnds (s t : State) : Prop :=
  if t.pxpos = s.pxlen then t.phase = .done ∧ t.outLen = s.pxlen else t.phase = s.phase ∧ t.outLen = s.outLen

/-- The index update (R121): `IDX[hash(q)]` holds `q`, every other slot what it held. -/
def IndexStored (q : Pixel) (s t : State) : Prop :=
  ∀ k, slotGet t.idx k = if k = hash q then q else slotGet s.idx k

/-- A slot step that fetched an op of `n` bytes and left `PX = q`, `RUN = r` (R112). -/
def OpSlotDone (n : Nat) (q : Pixel) (r : BitVec 6) (s t : State) : Prop :=
  t.px = q ∧ t.run = r ∧ t.p.toNat = s.p.toNat + n ∧ IndexStored q s t ∧ OutputWritten q s t ∧ SlotEnds s t

/-! What a step does not touch -/

/-- The registers that no step of a busy phase writes: the latched values, the pending command, `ERR`, the descriptor
and the host's registers. -/
def RunConstants (s t : State) : Prop :=
  t.pxlen = s.pxlen ∧ t.outCh = s.outCh ∧ t.cmd = s.cmd ∧ t.err = s.err ∧ t.desc = s.desc ∧
    t.reqChannels = s.reqChannels ∧ t.streamSize = s.streamSize ∧ t.outCap = s.outCap

/-- Every byte of `n` is as in `m`, but for the `len` bytes from `a` on. -/
def SameOutside (a len : Nat) (m n : Memory) : Prop := ∀ x, x < a ∨ a + len ≤ x → n.read x = m.read x

/-! The invariants -/

/-- Both memory spaces are in canonical form (R40). -/
def MemoryInv (s : State) : Prop := s.stream.wf ∧ s.pixels.wf

/-- `RUN` is at most 61 at a step boundary (R22). -/
def RunCounterInv (s : State) : Prop := s.run.toNat ≤ 61

/-- `ERR` is 0 unless `PHASE` is `ERROR`, and 1 to 4 then (R32). -/
def ErrInv (s : State) : Prop := s.err = .none ↔ s.phase ≠ .error

/-- Every slot holds (0, 0, 0, 0) or a pixel whose hash is the slot's number (R129). -/
def SlotInv (s : State) : Prop := ∀ k, slotGet s.idx k = zeroPixel ∨ hash (slotGet s.idx k) = k

/-- A decode run between two steps: the header has passed its checks (R162), the lengths are those of R29, the output
lies on a pixel boundary and is not full (R126), the cursor is inside the bounds of R124, the stream is loaded exactly
(R193) and the output fits its space (R163). -/
structure DecodeInv (s : State) : Prop where
  valid : validDesc s.desc = true
  outCh : s.outCh = outChannels s.reqChannels s.desc.channels
  len : s.pxlen.toNat = s.desc.pixelCount * s.outCh.count
  aligned : s.pxpos.toNat % s.outCh.count = 0
  notFull : s.pxpos.toNat < s.pxlen.toNat
  size : 22 ≤ s.streamSize.toNat
  low : 14 ≤ s.p.toNat
  high : s.p.toNat + 4 ≤ s.streamSize.toNat
  loaded : s.stream.holdsExactly s.streamSize.toNat = true
  fits : s.pxlen.toNat ≤ s.outCap.toNat

/-- An encode run between two steps: the descriptor has passed its checks (R164), the length is that of R29, the input
lies on a pixel boundary, the output bound of R146 holds (a pending run counts as one byte), the run is flushed and the
body is not empty after the last pixel (R145), alpha stays at the baseline with 3 channels (R133), the pixels are loaded
(R193). -/
structure EncodeInv (s : State) : Prop where
  valid : validDesc s.desc = true
  len : s.pxlen.toNat = s.desc.pixelCount * s.desc.channels.toNat
  aligned : s.pxpos.toNat % s.desc.channels.toNat = 0
  inside : s.pxpos.toNat ≤ s.pxlen.toNat
  low : 14 ≤ s.p.toNat
  high : s.p.toNat + (if s.run = 0 then 0 else 1) ≤
    14 + s.pxpos.toNat / s.desc.channels.toNat * (s.desc.channels.toNat + 1)
  flushed : s.pxpos.toNat = s.pxlen.toNat → s.run = 0 ∧ 15 ≤ s.p.toNat
  alpha : s.desc.channels = 3 → s.px.a = 255
  loaded : s.pixels.holdsExactly s.pxlen.toNat = true
  fits : s.desc.encodeNeed ≤ s.outCap.toNat

/-- The invariant of the whole machine between two steps. -/
def RunInv (s : State) : Prop :=
  MemoryInv s ∧ RunCounterInv s ∧ ErrInv s ∧ (s.phase = .busyDec → DecodeInv s) ∧ (s.phase = .busyEnc → EncodeInv s)

/-- A safe step: the machine goes on. -/
def SafeStep (s : State) : Prop := ∃ t, step s = .next t

/-- How many steps a run has left (R161, R206), 0 outside a run. The unit is a byte of the pixel space. -/
def stepsLeft (s : State) : Nat :=
  match s.phase with
  | .idle => 0
  | .busyEnc => s.pxlen.toNat - s.pxpos.toNat + 1
  | .busyDec => s.pxlen.toNat - s.pxpos.toNat
  | .done => 0
  | .error => 0

end Sys2Proof.Machine
end

