-- ==== Sys2Proof/Certificates/Slice0/Obligations.lean ====
section
/-!
DEFINITION. The statements about QOI-CORE for the provers. Each docstring names the rule of spec/ it formalises.
-/

open Sys2Proof Sys2Proof.Machine

/-! ## Encoding -/

/-- Decoding the bytes of any op gives it back, whatever follows (R61 to R67, R71). -/
def Obligations.DecodeInvertsEncode : Prop :=
  ∀ (i : Instr) (rest : List Byte), i.wellFormed = true → decode (encode i ++ rest) = .ok (i, rest)

/-- Whatever decodes is the encoding of the op it decodes to: no byte string has two readings, no bit is dropped (R71,
R72). -/
def Obligations.EncodeInvertsDecode : Prop :=
  ∀ (bs : List Byte) (i : Instr) (rest : List Byte),
    decode bs = .ok (i, rest) → i.wellFormed = true ∧ encode i ++ rest = bs

/-- R72: each of the 256 first bytes selects the op and the length of the table, whatever the payload. -/
def Obligations.EveryFirstByteSelectsItsOp : Prop :=
  ∀ (b p1 p2 p3 p4 : Byte) (rest : List Byte),
    let bs := b :: p1 :: p2 :: p3 :: p4 :: rest
    (b.toNat ≤ 0x3F → ∃ x, decode bs = .ok (.index x, bs.drop 1)) ∧
    (0x40 ≤ b.toNat → b.toNat ≤ 0x7F → ∃ rr gg bb, decode bs = .ok (.diff rr gg bb, bs.drop 1)) ∧
    (0x80 ≤ b.toNat → b.toNat ≤ 0xBF → ∃ g x y, decode bs = .ok (.luma g x y, bs.drop 2)) ∧
    (0xC0 ≤ b.toNat → b.toNat ≤ 0xFD → ∃ x, decode bs = .ok (.run x, bs.drop 1)) ∧
    (b.toNat = 0xFE → decode bs = .ok (.rgb p1 p2 p3, bs.drop 4)) ∧
    (b.toNat = 0xFF → decode bs = .ok (.rgba p1 p2 p3 p4, bs.drop 5))

/-- R69: the fields are extracted by the spec's shifts and masks and assembled by the spec's formulas. -/
def Obligations.FieldsFollowShiftsAndMasks : Prop :=
  (∀ (b1 : Byte) (rest : List Byte), b1.toNat ≤ 0x3F →
    decode (b1 :: rest) = .ok (.index ((b1 &&& 0x3F#8).setWidth 6), rest)) ∧
  (∀ (b1 : Byte) (rest : List Byte), 0x40 ≤ b1.toNat → b1.toNat ≤ 0x7F →
    decode (b1 :: rest) =
      .ok (.diff (((b1 >>> 4) &&& 3#8).setWidth 2) (((b1 >>> 2) &&& 3#8).setWidth 2) ((b1 &&& 3#8).setWidth 2), rest)) ∧
  (∀ (b1 b2 : Byte) (rest : List Byte), 0x80 ≤ b1.toNat → b1.toNat ≤ 0xBF →
    decode (b1 :: b2 :: rest) =
      .ok (.luma ((b1 &&& 0x3F#8).setWidth 6) (((b2 >>> 4) &&& 0x0F#8).setWidth 4) ((b2 &&& 0x0F#8).setWidth 4), rest)) ∧
  (∀ (b1 : Byte) (rest : List Byte), 0xC0 ≤ b1.toNat → b1.toNat ≤ 0xFD →
    decode (b1 :: rest) = .ok (.run ((b1 &&& 0x3F#8).setWidth 6), rest)) ∧
  (∀ dr dg db : Int, -2 ≤ dr → dr ≤ 1 → -2 ≤ dg → dg ≤ 1 → -2 ≤ db → db ≤ 1 →
    encode (diffOp ⟨dr, dg, db⟩) =
      [0x40#8 ||| (BitVec.ofInt 8 (dr + 2) <<< 4) ||| (BitVec.ofInt 8 (dg + 2) <<< 2) ||| BitVec.ofInt 8 (db + 2)]) ∧
  (∀ dg dRG dBG : Int, -32 ≤ dg → dg ≤ 31 → -8 ≤ dRG → dRG ≤ 7 → -8 ≤ dBG → dBG ≤ 7 →
    encode (.luma (biasField 6 32 dg) (biasField 4 8 dRG) (biasField 4 8 dBG)) =
      [0x80#8 ||| BitVec.ofInt 8 (dg + 32), (BitVec.ofInt 8 (dRG + 8) <<< 4) ||| BitVec.ofInt 8 (dBG + 8)]) ∧
  (∀ h : BitVec 6, encode (.index h) = [0x00#8 ||| h.setWidth 8]) ∧
  (∀ n : BitVec 6, 1 ≤ n.toNat → n.toNat ≤ 62 → encode (runOp n) = [0xC0#8 ||| (n.setWidth 8 - 1)]) ∧
  encode (diffOp ⟨1, 1, 1⟩) = [0x7F#8]

/-- Byte sequences the spec prints beside the op they stand for (R76 and the examples of R115 to R120). -/
def Obligations.SpecBytesDecodeToTheirOps : Prop :=
  decode [0xFE#8, 0x64#8, 0x64#8, 0x64#8] = .ok (.rgb 100 100 100, []) ∧
  decode [0xFF#8, 0x00#8, 0x00#8, 0x00#8, 0x80#8] = .ok (.rgba 0 0 0 128, []) ∧
  decode [0x11#8] = .ok (.index 17, []) ∧
  decode [0x7F#8] = .ok (.diff 3 3 3, []) ∧
  decode [0xAA#8, 0x88#8] = .ok (.luma 42 8 8, []) ∧
  decode [0xFD#8] = .ok (.run 61, [])

/-! ## The decoder's steps -/

/-- R112: in a fetching slot the step is the execution of the op that stands at `P`. `exec` is the whole slot: it moves
`P` past the op's bytes, stores the index and writes the output (log 10). -/
def Obligations.StepRunsTheFetchedOp : Prop :=
  ∀ (s : State) (n : Nat) (bs : List Byte) (i : Instr),
    s.phase = .busyDec → s.run = 0 → s.pxpos.toNat < s.pxlen.toNat → s.p.toNat + 8 < s.streamSize.toNat →
    s.stream.readBytes s.p.toNat n = some bs → decode bs = .ok (i, []) → step s = exec i s

/-- R115: `QOI_OP_RGB` completes; red, green and blue are the payload, alpha is kept. -/
def Obligations.RgbOpTakesThreeChannels : Prop :=
  (∀ (r g b : Byte) (rest : List Byte), decode (0xFE#8 :: r :: g :: b :: rest) = .ok (.rgb r g b, rest)) ∧
  ∀ (r g b : Byte) (s : State), OpRoom 4 s →
    ∃ t, exec (.rgb r g b) s = .next t ∧ OpSlotDone 4 ⟨r, g, b, s.px.a⟩ s.run s t

/-- R116: `QOI_OP_RGBA` completes; all four channels are the payload. -/
def Obligations.RgbaOpTakesFourChannels : Prop :=
  (∀ (r g b a : Byte) (rest : List Byte), decode (0xFF#8 :: r :: g :: b :: a :: rest) = .ok (.rgba r g b a, rest)) ∧
  ∀ (r g b a : Byte) (s : State), OpRoom 5 s →
    ∃ t, exec (.rgba r g b a) s = .next t ∧ OpSlotDone 5 ⟨r, g, b, a⟩ s.run s t

/-- R117: `QOI_OP_INDEX` completes; `PX` is the slot as it was before the index update, and the update changes nothing
when the slot's pixel hashes to the slot. -/
def Obligations.IndexOpReadsTheSlot : Prop :=
  (∀ (b1 : Byte) (rest : List Byte), b1.toNat ≤ 0x3F →
    decode (b1 :: rest) = .ok (.index ((b1 &&& 0x3F#8).setWidth 6), rest)) ∧
  ∀ (x : BitVec 6) (s : State), OpRoom 1 s →
    ∃ t, exec (.index x) s = .next t ∧ OpSlotDone 1 (slotGet s.idx x) s.run s t ∧
      (hash (slotGet s.idx x) = x → ∀ k, slotGet t.idx k = slotGet s.idx k)

/-- R118: `QOI_OP_DIFF` completes; each colour channel moves by its field minus 2 modulo 256, alpha is kept. -/
def Obligations.DiffOpMovesEachChannel : Prop :=
  (∀ (b1 : Byte) (rest : List Byte), 0x40 ≤ b1.toNat → b1.toNat ≤ 0x7F →
    decode (b1 :: rest) =
      .ok (.diff (((b1 >>> 4) &&& 3#8).setWidth 2) (((b1 >>> 2) &&& 3#8).setWidth 2) ((b1 &&& 3#8).setWidth 2), rest)) ∧
  ∀ (rr gg bb : BitVec 2) (s : State), OpRoom 1 s →
    ∃ t, exec (.diff rr gg bb) s = .next t ∧ OpSlotDone 1 t.px s.run s t ∧
      (t.px.r.toNat : Int) = ((s.px.r.toNat : Int) + rr.toNat - 2) % 256 ∧
      (t.px.g.toNat : Int) = ((s.px.g.toNat : Int) + gg.toNat - 2) % 256 ∧
      (t.px.b.toNat : Int) = ((s.px.b.toNat : Int) + bb.toNat - 2) % 256 ∧
      t.px.a = s.px.a

/-- R119: `QOI_OP_LUMA` completes; green moves by `vg = g - 32`, red and blue by `vg - 8` plus their fields, modulo 256,
alpha is kept. -/
def Obligations.LumaOpMovesByGreen : Prop :=
  (∀ (b1 b2 : Byte) (rest : List Byte), 0x80 ≤ b1.toNat → b1.toNat ≤ 0xBF →
    decode (b1 :: b2 :: rest) =
      .ok (.luma ((b1 &&& 0x3F#8).setWidth 6) (((b2 >>> 4) &&& 0x0F#8).setWidth 4) ((b2 &&& 0x0F#8).setWidth 4), rest)) ∧
  ∀ (g : BitVec 6) (r b : BitVec 4) (s : State), OpRoom 2 s →
    ∃ t, exec (.luma g r b) s = .next t ∧ OpSlotDone 2 t.px s.run s t ∧
      (t.px.r.toNat : Int) = ((s.px.r.toNat : Int) + ((g.toNat : Int) - 32) - 8 + r.toNat) % 256 ∧
      (t.px.g.toNat : Int) = ((s.px.g.toNat : Int) + ((g.toNat : Int) - 32)) % 256 ∧
      (t.px.b.toNat : Int) = ((s.px.b.toNat : Int) + ((g.toNat : Int) - 32) - 8 + b.toNat) % 256 ∧
      t.px.a = s.px.a

/-- R120 and R121: `QOI_OP_RUN` completes; `RUN` is the field, `PX` is kept, output once in this slot and stored in the
index table (the reading of 90 C1). For the fields 62 and 63, which no byte decodes to (R74, 90 C9), that `RUN` is the
field is the model's choice (log 19). -/
def Obligations.RunOpLoadsTheCounter : Prop :=
  (∀ (b1 : Byte) (rest : List Byte), 0xC0 ≤ b1.toNat → b1.toNat ≤ 0xFD →
    decode (b1 :: rest) = .ok (.run ((b1 &&& 0x3F#8).setWidth 6), rest)) ∧
  ∀ (x : BitVec 6) (s : State), OpRoom 1 s →
    ∃ t, exec (.run x) s = .next t ∧ OpSlotDone 1 s.px x s t

/-- The frame of the six ops: STREAM, the latched and host registers, every slot but `hash(PX)`, every PIXELS byte outside
the `OUT_CH` bytes at `PXPOS`; `PHASE` and `OUT_LEN` change only when the image becomes full; RUN alone writes `RUN` and
leaves `PX`, and only RGBA and INDEX write alpha (R115 to R122, R126). -/
def Obligations.OpsTouchNothingElse : Prop :=
  ∀ (i : Instr) (s t : State), exec i s = .next t →
    t.stream = s.stream ∧ RunConstants s t ∧ SlotEnds s t ∧
    (∀ k, k ≠ hash t.px → slotGet t.idx k = slotGet s.idx k) ∧
    SameOutside s.pxpos.toNat s.outCh.count s.pixels t.pixels ∧
    (match i with
      | .rgb _ _ _ => t.run = s.run ∧ t.px.a = s.px.a
      | .rgba _ _ _ _ => t.run = s.run
      | .index _ => t.run = s.run
      | .diff _ _ _ => t.run = s.run ∧ t.px.a = s.px.a
      | .luma _ _ _ => t.run = s.run ∧ t.px.a = s.px.a
      | .run _ => t.px = s.px)

/-- R114: a run-repeat slot completes; it decrements `RUN`, outputs `PX`, consumes no op and makes no index update, even
when `P` has reached the padding region (R202). -/
def Obligations.RepeatSlotConsumesNoOp : Prop :=
  ∀ s : State, s.phase = .busyDec → s.run ≠ 0 → s.pxpos.toNat < s.pxlen.toNat → SlotRoom s →
    ∃ t, step s = .next t ∧ t.run.toNat = s.run.toNat - 1 ∧ t.px = s.px ∧ t.idx = s.idx ∧ t.p = s.p ∧
      OutputWritten s.px s t ∧ SlotEnds s t ∧ t.stream = s.stream ∧ RunConstants s t ∧
      SameOutside s.pxpos.toNat s.outCh.count s.pixels t.pixels

/-- R113: an exhausted-stream slot completes; it reads nothing, keeps `PX`, `IDX`, `RUN` and `P`, and outputs `PX`
again. -/
def Obligations.ExhaustedSlotRepeatsThePixel : Prop :=
  ∀ s : State, s.phase = .busyDec → s.run = 0 → s.streamSize.toNat ≤ s.p.toNat + 8 →
    s.pxpos.toNat < s.pxlen.toNat → SlotRoom s →
    ∃ t, step s = .next t ∧ t.run = s.run ∧ t.px = s.px ∧ t.idx = s.idx ∧ t.p = s.p ∧
      OutputWritten s.px s t ∧ SlotEnds s t ∧ t.stream = s.stream ∧ RunConstants s t ∧
      SameOutside s.pxpos.toNat s.outCh.count s.pixels t.pixels

/-- R112, R122 and R126: whatever kind of slot it is, a decode step outputs exactly the pixel `PX` it leaves, 3 or 4
bytes at `PXPOS`, and ends the run exactly when the image is full. -/
def Obligations.EverySlotOutputsOnePixel : Prop :=
  ∀ s t : State, s.phase = .busyDec → step s = .next t →
    OutputWritten t.px s t ∧ SlotEnds s t ∧ SameOutside s.pxpos.toNat s.outCh.count s.pixels t.pixels

/-- R120 with R114: the `n` slots after a RUN op output the pixel `n` times more and read nothing. -/
def Obligations.PendingRunRepeatsItsPixel : Prop :=
  ∀ (n : Nat) (s : State), s.phase = .busyDec → s.run.toNat = n →
    s.pxpos.toNat + n * s.outCh.count < s.pxlen.toNat →
    ∃ t, Sys2Proof.core.run n s = .next t ∧ t.run = 0 ∧ t.px = s.px ∧ t.idx = s.idx ∧ t.p = s.p ∧
      t.phase = .busyDec ∧ t.stream = s.stream ∧ t.pxpos.toNat = s.pxpos.toNat + n * s.outCh.count ∧
      (∀ k, k < n →
        t.pixels.readBytes (s.pxpos.toNat + k * s.outCh.count) s.outCh.count = some (outBytes s.outCh s.px)) ∧
      SameOutside s.pxpos.toNat (n * s.outCh.count) s.pixels t.pixels

/-! ## The encoder's steps -/

/-- R133: the fetch of `CUR`, with the alpha byte in a 4-channel run and the previous alpha in a 3-channel run. -/
def Obligations.CurIsFetchedInChannelOrder : Prop :=
  (∀ (s : State) (r g b a : Byte), s.desc.channels = 4 →
    s.pixels.readBytes s.pxpos.toNat 4 = some [r, g, b, a] → fetchCur s = some ⟨r, g, b, a⟩) ∧
  (∀ (s : State) (r g b : Byte), s.desc.channels = 3 →
    s.pixels.readBytes s.pxpos.toNat 3 = some [r, g, b] → fetchCur s = some ⟨r, g, b, s.px.a⟩)

/-- R134: a pixel equal to `PX` completes; it counts, flushes one RUN byte when the count reaches 62 or the pixel is the
last, and touches neither `IDX` nor any other register. -/
def Obligations.EqualPixelAccumulatesTheRun : Prop :=
  ∀ s : State, s.phase = .busyEnc → s.pxpos.toNat < s.pxlen.toNat → fetchCur s = some s.px → s.run.toNat ≤ 61 →
    s.p.toNat + 1 < 4294967296 → s.pxpos.toNat + s.desc.channels.toNat < 4294967296 →
    ∃ t, step s = .next t ∧ t.px = s.px ∧ t.idx = s.idx ∧
      t.pxpos.toNat = s.pxpos.toNat + s.desc.channels.toNat ∧ t.pixels = s.pixels ∧ RunConstants s t ∧
      t.phase = s.phase ∧ t.outLen = s.outLen ∧
      (if s.run.toNat + 1 = 62 ∨ s.pxpos.toNat + s.desc.channels.toNat = s.pxlen.toNat then
        t.run = 0 ∧ t.p.toNat = s.p.toNat + 1 ∧ t.stream.read s.p.toNat = some (BitVec.ofNat 8 (0xC0 + s.run.toNat)) ∧
          SameOutside s.p.toNat 1 s.stream t.stream
      else t.run.toNat = s.run.toNat + 1 ∧ t.p = s.p ∧ t.stream = s.stream)

/-- R132, R135, R138, R143 and R198: a pixel that differs from `PX` completes; the pending run is flushed first, then the
multiplexer's op follows, the pixel stands in its slot and becomes `PX`. -/
def Obligations.NewPixelFlushesThenEmits : Prop :=
  ∀ (s : State) (cur : Pixel), s.phase = .busyEnc → s.pxpos.toNat < s.pxlen.toNat → fetchCur s = some cur →
    cur ≠ s.px → s.p.toNat + 6 < 4294967296 → s.pxpos.toNat + s.desc.channels.toNat < 4294967296 →
    let bytes := (if s.run = 0 then [] else [BitVec.ofNat 8 (0xC0 + (s.run.toNat - 1))]) ++
      encode (muxOp s.px (slotGet s.idx (hash cur)) cur)
    ∃ t, step s = .next t ∧ t.stream.readBytes s.p.toNat bytes.length = some bytes ∧
      t.p.toNat = s.p.toNat + bytes.length ∧ SameOutside s.p.toNat bytes.length s.stream t.stream ∧
      t.run = 0 ∧ t.px = cur ∧ IndexStored cur s t ∧
      t.pxpos.toNat = s.pxpos.toNat + s.desc.channels.toNat ∧ t.pixels = s.pixels ∧ RunConstants s t ∧
      t.phase = s.phase ∧ t.outLen = s.outLen

/-- R136 to R142 with R89 to R92: the multiplexer's choice, by the spec's own inequalities on the narrowed differences,
and the bytes of each op it emits. -/
def Obligations.MultiplexerEmitsTheTable : Prop :=
  ∀ px slot cur : Pixel,
    let s8 : Int → Int := fun v => (v + 128) % 256 - 128
    let dR := s8 ((cur.r.toNat : Int) - px.r.toNat)
    let dG := s8 ((cur.g.toNat : Int) - px.g.toNat)
    let dB := s8 ((cur.b.toNat : Int) - px.b.toNat)
    let dRG := s8 (dR - dG)
    let dBG := s8 (dB - dG)
    let fitsDiff := (-2 ≤ dR ∧ dR ≤ 1) ∧ (-2 ≤ dG ∧ dG ≤ 1) ∧ (-2 ≤ dB ∧ dB ≤ 1)
    let fitsLuma := (-32 ≤ dG ∧ dG ≤ 31) ∧ (-8 ≤ dRG ∧ dRG ≤ 7) ∧ (-8 ≤ dBG ∧ dBG ≤ 7)
    let bytes := encode (muxOp px slot cur)
    (slot = cur → bytes = [(hash cur).setWidth 8]) ∧
    (slot ≠ cur → cur.a ≠ px.a → bytes = [0xFF#8, cur.r, cur.g, cur.b, cur.a]) ∧
    (slot ≠ cur → cur.a = px.a → fitsDiff →
      bytes = [BitVec.ofInt 8 (64 + 16 * (dR + 2) + 4 * (dG + 2) + (dB + 2))]) ∧
    (slot ≠ cur → cur.a = px.a → ¬fitsDiff → fitsLuma →
      bytes = [BitVec.ofInt 8 (128 + (dG + 32)), BitVec.ofInt 8 (16 * (dRG + 8) + (dBG + 8))]) ∧
    (slot ≠ cur → cur.a = px.a → ¬fitsDiff → ¬fitsLuma → bytes = [0xFE#8, cur.r, cur.g, cur.b])

/-- R147: the padding step completes; it writes the eight sentinel bytes at `P` and ends the run with `OUT_LEN` past
them. -/
def Obligations.PaddingStepEndsTheRun : Prop :=
  ∀ s : State, s.phase = .busyEnc → s.pxpos = s.pxlen → s.p.toNat + 8 < 4294967296 →
    ∃ t, step s = .next t ∧
      t.stream.readBytes s.p.toNat 8 = some [0x00#8, 0x00#8, 0x00#8, 0x00#8, 0x00#8, 0x00#8, 0x00#8, 0x01#8] ∧
      t.p.toNat = s.p.toNat + 8 ∧ t.outLen = t.p ∧ t.phase = .done ∧
      SameOutside s.p.toNat 8 s.stream t.stream ∧ t.pixels = s.pixels ∧ RunConstants s t ∧
      t.px = s.px ∧ t.run = s.run ∧ t.idx = s.idx ∧ t.pxpos = s.pxpos

/-- R95: the op the encoder chooses for `CUR` is executed by a decoder with the same `PX` to exactly `CUR`, and the
decoder's table then holds `CUR` in its slot. The tables need agree only where an INDEX op would read (R151). -/
def Obligations.EmittedOpDecodesToThePixel : Prop :=
  ∀ (px slot cur : Pixel) (s : State), s.px = px → (slot = cur → slotGet s.idx (hash cur) = cur) →
    OpRoom 5 s →
    ∃ t, exec (muxOp px slot cur) s = .next t ∧ t.px = cur ∧ t.run = s.run ∧ IndexStored cur s t ∧
      OutputWritten cur s t

/-- R74 and R152: no op a pixel step emits is ill-formed; in particular no RUN op has a field above 61. -/
def Obligations.EncoderEmitsNoReservedField : Prop :=
  ∀ (s : State) (cur : Pixel), RunCounterInv s → ∀ i ∈ encOps cur s, i.wellFormed = true

/-- R133: a 3-channel encode run never emits an RGBA op. -/
def Obligations.ThreeChannelRunEmitsNoRgba : Prop :=
  ∀ (s : State) (cur : Pixel), s.desc.channels = 3 → fetchCur s = some cur →
    ∀ r g b a : Byte, Instr.rgba r g b a ∉ encOps cur s

/-- R146: a pixel step emits at most `channels + 1` bytes for its own pixel, and one more when a run is pending. -/
def Obligations.PixelStepEmissionIsBounded : Prop :=
  ∀ (s : State) (cur : Pixel), (s.desc.channels = 3 ∨ s.desc.channels = 4) → fetchCur s = some cur →
    ((encOps cur s).flatMap encode).length ≤ s.desc.channels.toNat + 1 + (if s.run = 0 then 0 else 1)

/-! ## The START steps, errors and phases -/

/-- R162, R172 to R177: the failing checks of START_DECODE in their order; a failing step writes nothing but `ERR` and
`PHASE` (and takes the command, log 3). -/
def Obligations.StartDecodeReportsTheFirstFailure : Prop :=
  ∀ s : State, s.phase.busy = false → s.cmd = 2 →
    ((s.reqChannels ≠ 0 ∧ s.reqChannels ≠ 3 ∧ s.reqChannels ≠ 4) →
      step s = .next { s with cmd := 0, err := .invalidArgument, phase := .error }) ∧
    ((s.reqChannels = 0 ∨ s.reqChannels = 3 ∨ s.reqChannels = 4) →
      (s.streamSize.toNat < 22 → step s = .next { s with cmd := 0, err := .truncated, phase := .error }) ∧
      (22 ≤ s.streamSize.toNat → s.stream.holdsExactly s.streamSize.toNat = true →
        ∀ (magic : Word) (d : Desc), readHeader s.stream = some (magic, d) →
          ((magic ≠ 0x716F6966#32 ∨ validDesc d = false) →
            step s = .next { s with cmd := 0, err := .invalidHeader, phase := .error }) ∧
          (magic = 0x716F6966#32 → validDesc d = true →
            s.outCap.toNat < d.width.toNat * d.height.toNat *
              (if s.reqChannels = 0 then d.channels else s.reqChannels).toNat →
            step s = .next { s with cmd := 0, err := .outOfMemory, phase := .error })))

/-- R111 with R162 and R29: a START_DECODE step that passes every check completes in the initial state of a decode
run. That the command is then taken (`t.cmd = 0`) is the model's latch (log 3), and that `OUT_LEN`, which R39 leaves
unspecified until the run ends, keeps its value is the model's choice (log 11). -/
def Obligations.StartDecodeSetsTheInitialState : Prop :=
  ∀ (s : State) (d : Desc), s.phase.busy = false → s.cmd = 2 →
    (s.reqChannels = 0 ∨ s.reqChannels = 3 ∨ s.reqChannels = 4) → 22 ≤ s.streamSize.toNat →
    s.stream.holdsExactly s.streamSize.toNat = true → readHeader s.stream = some (0x716F6966#32, d) → validDesc d = true →
    d.width.toNat * d.height.toNat * (if s.reqChannels = 0 then d.channels else s.reqChannels).toNat ≤ s.outCap.toNat →
    ∃ t, step s = .next t ∧ t.px = ⟨0, 0, 0, 255⟩ ∧ (∀ k, slotGet t.idx k = ⟨0, 0, 0, 0⟩) ∧ t.run = 0 ∧ t.p = 14 ∧
      t.pxpos = 0 ∧ t.outCh.count = (if s.reqChannels = 0 then d.channels else s.reqChannels).toNat ∧
      t.pxlen.toNat = d.width.toNat * d.height.toNat *
        (if s.reqChannels = 0 then d.channels else s.reqChannels).toNat ∧
      t.desc = d ∧ t.phase = .busyDec ∧ t.err = .none ∧ t.cmd = 0 ∧ t.outLen = s.outLen ∧
      t.stream = s.stream ∧ t.pixels = s.pixels ∧ t.reqChannels = s.reqChannels ∧ t.streamSize = s.streamSize ∧
      t.outCap = s.outCap

/-- R164, R172, R175 and R177: the failing checks of START_ENCODE in their order. -/
def Obligations.StartEncodeReportsTheFirstFailure : Prop :=
  ∀ s : State, s.phase.busy = false → s.cmd = 1 →
    (validDesc s.desc = false → step s = .next { s with cmd := 0, err := .invalidArgument, phase := .error }) ∧
    (validDesc s.desc = true →
      s.outCap.toNat < s.desc.width.toNat * s.desc.height.toNat * (s.desc.channels.toNat + 1) + 22 →
      step s = .next { s with cmd := 0, err := .outOfMemory, phase := .error })

/-- R131 with R164 and R100: a START_ENCODE step that passes every check completes in the initial state of an encode run,
with the 14 header bytes at STREAM addresses 0 to 13 and every other STREAM byte as before. That the command is then
taken (`t.cmd = 0`) is the model's latch (log 3), and that `OUT_LEN`, which R39 leaves unspecified until the run ends,
keeps its value is the model's choice (log 11). -/
def Obligations.StartEncodeWritesTheHeader : Prop :=
  ∀ s : State, s.phase.busy = false → s.cmd = 1 → validDesc s.desc = true →
    s.desc.width.toNat * s.desc.height.toNat * (s.desc.channels.toNat + 1) + 22 ≤ s.outCap.toNat →
    s.pixels.holdsExactly (s.desc.width.toNat * s.desc.height.toNat * s.desc.channels.toNat) = true →
    ∃ t, step s = .next t ∧ t.px = ⟨0, 0, 0, 255⟩ ∧ (∀ k, slotGet t.idx k = ⟨0, 0, 0, 0⟩) ∧ t.run = 0 ∧ t.p = 14 ∧
      t.pxpos = 0 ∧
      t.pxlen.toNat = s.desc.width.toNat * s.desc.height.toNat * s.desc.channels.toNat ∧
      t.stream.readBytes 0 14 = some
        [0x71#8, 0x6F#8, 0x69#8, 0x66#8,
          BitVec.ofNat 8 (s.desc.width.toNat / 16777216), BitVec.ofNat 8 (s.desc.width.toNat / 65536),
          BitVec.ofNat 8 (s.desc.width.toNat / 256), BitVec.ofNat 8 s.desc.width.toNat,
          BitVec.ofNat 8 (s.desc.height.toNat / 16777216), BitVec.ofNat 8 (s.desc.height.toNat / 65536),
          BitVec.ofNat 8 (s.desc.height.toNat / 256), BitVec.ofNat 8 s.desc.height.toNat,
          s.desc.channels, s.desc.colorspace] ∧
      SameOutside 0 14 s.stream t.stream ∧
      t.desc = s.desc ∧ t.phase = .busyEnc ∧ t.err = .none ∧ t.cmd = 0 ∧ t.outLen = s.outLen ∧ t.outCh = s.outCh ∧
      t.pixels = s.pixels ∧ t.reqChannels = s.reqChannels ∧ t.streamSize = s.streamSize ∧ t.outCap = s.outCap

/-- R51 and R193: a START whose input space does not hold exactly the stated bytes is refused, be it that an address
below the stated length holds none or that one at or above it holds one. Where the step looks at the premise, after the
checks that read no memory, is the model's choice (log 5), and so is how an address holds no byte (log 1). -/
def Obligations.UnloadedLaunchIsRefused : Prop :=
  ∀ (s : State) (a : Nat), MemoryInv s → s.phase.busy = false →
    (s.cmd = 2 → (s.reqChannels = 0 ∨ s.reqChannels = 3 ∨ s.reqChannels = 4) → 22 ≤ s.streamSize.toNat →
      (a < s.streamSize.toNat ∧ s.stream.read a = none) ∨ (s.streamSize.toNat ≤ a ∧ s.stream.read a ≠ none) →
      step s = .refused .inputNotLoaded) ∧
    (s.cmd = 1 → validDesc s.desc = true →
      s.desc.width.toNat * s.desc.height.toNat * (s.desc.channels.toNat + 1) + 22 ≤ s.outCap.toNat →
      (a < s.desc.width.toNat * s.desc.height.toNat * s.desc.channels.toNat ∧ s.pixels.read a = none) ∨
        (s.desc.width.toNat * s.desc.height.toNat * s.desc.channels.toNat ≤ a ∧ s.pixels.read a ≠ none) →
      step s = .refused .inputNotLoaded)

/-- R161 and R166: in `IDLE`, `DONE` and `ERROR` without a command 1 or 2 nothing changes. -/
def Obligations.QuiescentPhaseWaitsForACommand : Prop :=
  ∀ s : State, s.phase.busy = false → s.cmd ≠ 1 → s.cmd ≠ 2 → step s = .next s

/-- R161: the moves of `PHASE`. -/
def Obligations.PhaseMovesAsInTheTable : Prop :=
  ∀ s t : State, step s = .next t →
    (s.phase.busy = false → s.cmd = 1 → t.phase = .busyEnc ∨ t.phase = .error) ∧
    (s.phase.busy = false → s.cmd = 2 → t.phase = .busyDec ∨ t.phase = .error) ∧
    (s.phase.busy = false → s.cmd ≠ 1 → s.cmd ≠ 2 → t.phase = s.phase) ∧
    (s.phase = .busyEnc → s.pxpos.toNat < s.pxlen.toNat → t.phase = .busyEnc) ∧
    (s.phase = .busyEnc → s.pxpos.toNat = s.pxlen.toNat → t.phase = .done) ∧
    (s.phase = .busyDec → s.pxpos.toNat < s.pxlen.toNat ∧ (t.phase = .busyDec ∨ t.phase = .done))

/-- R41 and R56: a busy step never writes the input space, and changes none of the latched, descriptor and host
registers. -/
def Obligations.BusyStepLeavesItsInputAlone : Prop :=
  ∀ s t : State, s.phase.busy = true → step s = .next t →
    RunConstants s t ∧ (s.phase = .busyDec → t.stream = s.stream) ∧ (s.phase = .busyEnc → t.pixels = s.pixels)

/-! ## Invariants -/

/-- Every step keeps both memory spaces in canonical form (R40; the form is the model's, log 1). -/
def Obligations.StepKeepsMemoryCanonical : Prop :=
  ∀ s t : State, MemoryInv s → step s = .next t → MemoryInv t

/-- R22: every step keeps `RUN` at most 61. -/
def Obligations.StepKeepsRunBelowSixtyTwo : Prop :=
  ∀ s t : State, RunCounterInv s → step s = .next t → RunCounterInv t

/-- R32: every step keeps `ERR` 0 outside `ERROR` and non-zero in it. -/
def Obligations.StepKeepsErrWithPhase : Prop :=
  ∀ s t : State, ErrInv s → step s = .next t → ErrInv t

/-- R129: every step keeps every slot at (0, 0, 0, 0) or at a pixel that hashes to it. -/
def Obligations.StepKeepsSlotsHashed : Prop :=
  ∀ s t : State, SlotInv s → step s = .next t → SlotInv t

/-- R49, R50, R124, R145 and R146 as one invariant of the whole machine, kept by every step. -/
def Obligations.StepKeepsTheRunInvariant : Prop :=
  ∀ s t : State, RunInv s → step s = .next t → RunInv t

/-- The state after reset meets the invariants. -/
def Obligations.ResetMeetsTheInvariants : Prop := RunInv State.reset ∧ SlotInv State.reset

/-- R128 and R148: under the invariant no busy step stops; the machine goes on. -/
def Obligations.BusyStepCannotFail : Prop := ∀ s : State, RunInv s → s.phase.busy = true → SafeStep s

/-- R206: under the invariant every busy step brings the end of the run nearer, so every run ends. -/
def Obligations.BusyStepComesNearerTheEnd : Prop :=
  ∀ s t : State, RunInv s → s.phase.busy = true → step s = .next t → stepsLeft t < stepsLeft s

/-- R128 and R148: a decode run of `k` pixels still to fill ends in `DONE` after exactly `k` slot steps, an encode run
with `k` pixels left after exactly `k` pixel steps and one padding step: it is busy after every smaller number of steps.
`OUT_LEN` is the image's length (R126), or the cursor past the padding (R147). -/
def Obligations.BusyRunEndsOnTime : Prop :=
  ∀ (k : Nat) (s : State), RunInv s →
    (s.phase = .busyDec → s.pxpos.toNat + k * s.outCh.count = s.pxlen.toNat →
      (∀ j, j < k → ∃ u, Sys2Proof.core.run j s = .next u ∧ u.phase = .busyDec) ∧
      ∃ t, Sys2Proof.core.run k s = .next t ∧ t.phase = .done ∧ t.outLen = s.pxlen) ∧
    (s.phase = .busyEnc → s.pxpos.toNat + k * s.desc.channels.toNat = s.pxlen.toNat →
      (∀ j, j < k + 1 → ∃ u, Sys2Proof.core.run j s = .next u ∧ u.phase = .busyEnc) ∧
      ∃ t, Sys2Proof.core.run (k + 1) s = .next t ∧ t.phase = .done ∧ t.outLen = t.p)

/-- R150: from every launch of START_ENCODE that meets its checks and premises the run ends in `DONE`, and from every
launch of START_DECODE on the resulting stream, with `STREAM_SIZE = OUT_LEN` and `REQ_CHANNELS` 0 or the descriptor's
channel count, the run ends in `DONE` with the same descriptor and the same bytes in PIXELS. -/
def Obligations.RoundTripLaw : Prop :=
  ∀ s : State, RunInv s → s.phase.busy = false → s.cmd = 1 → validDesc s.desc = true →
    s.desc.width.toNat * s.desc.height.toNat * (s.desc.channels.toNat + 1) + 22 ≤ s.outCap.toNat →
    s.pixels.holdsExactly (s.desc.width.toNat * s.desc.height.toNat * s.desc.channels.toNat) = true →
    ∃ t, Sys2Proof.core.run (s.desc.width.toNat * s.desc.height.toNat + 2) s = .next t ∧ t.phase = .done ∧
      ∀ u : State, u.phase.busy = false → u.cmd = 2 → (u.reqChannels = 0 ∨ u.reqChannels = s.desc.channels) →
        u.streamSize = t.outLen → u.stream.holdsExactly u.streamSize.toNat = true →
        (∀ a, a < t.outLen.toNat → u.stream.read a = t.stream.read a) →
        s.desc.width.toNat * s.desc.height.toNat * s.desc.channels.toNat ≤ u.outCap.toNat →
        ∃ v, Sys2Proof.core.run (s.desc.width.toNat * s.desc.height.toNat + 1) u = .next v ∧ v.phase = .done ∧
          v.desc = s.desc ∧
          v.outLen.toNat = s.desc.width.toNat * s.desc.height.toNat * s.desc.channels.toNat ∧
          ∀ a, a < v.outLen.toNat → v.pixels.read a = s.pixels.read a

/-- The host's writes keep the invariants, and while the block is busy they change nothing (R166, R168; the refusal is the
model's, log 13). -/
def Obligations.HostWritesKeepTheInvariants : Prop :=
  ∀ (w : HostWrite) (s t : State), hostWrite w s = .next t →
    (RunInv s → RunInv t) ∧ (SlotInv s → SlotInv t) ∧ (s.phase.busy = true → t = s)

/-- R30: an admitted host write gives its register, CR3 to CR9, or its byte the value and changes nothing else. The last
four clauses are the model's: fresh buffers (log 20), and the refusal of every write but of `CMD` while the block is busy
or a command waits (logs 3 and 13). -/
def Obligations.HostWriteSetsItsRegister : Prop :=
  ∀ s : State,
    (s.phase.busy = false → s.cmd = 0 →
      (∀ v, hostWrite (.descWidth v) s = .next { s with desc := { s.desc with width := v } }) ∧
      (∀ v, hostWrite (.descHeight v) s = .next { s with desc := { s.desc with height := v } }) ∧
      (∀ v, hostWrite (.descChannels v) s = .next { s with desc := { s.desc with channels := v } }) ∧
      (∀ v, hostWrite (.descColorspace v) s = .next { s with desc := { s.desc with colorspace := v } }) ∧
      (∀ v, hostWrite (.reqChannels v) s = .next { s with reqChannels := v }) ∧
      (∀ v, hostWrite (.streamSize v) s = .next { s with streamSize := v }) ∧
      (∀ v, hostWrite (.outCap v) s = .next { s with outCap := v }) ∧
      (∀ (a : Word) (v : Byte), ∃ m : Memory, hostWrite (.streamByte a v) s = .next { s with stream := m } ∧
        m.read a.toNat = some v ∧ SameOutside a.toNat 1 s.stream m) ∧
      (∀ (a : Word) (v : Byte), ∃ m : Memory, hostWrite (.pixelByte a v) s = .next { s with pixels := m } ∧
        m.read a.toNat = some v ∧ SameOutside a.toNat 1 s.pixels m) ∧
      hostWrite .freshStream s = .next { s with stream := [] } ∧
      hostWrite .freshPixels s = .next { s with pixels := [] }) ∧
    (s.phase.busy = true ∨ s.cmd ≠ 0 →
      ∀ w : HostWrite, (∀ v, w ≠ .cmd v) → hostWrite w s = .refused .hostMoveNotAdmitted)

/-- R160, R161 and R166: `CMD` written with 1 or 2 in a quiescent phase becomes the pending command and changes nothing
else; 0 and 3 change nothing in any phase; while the block is busy no value changes anything. That the command is pending
until the next step, and that a write in between changes nothing, is the model's latch (log 3). -/
def Obligations.CommandWriteStartsOrDoesNothing : Prop :=
  ∀ (v : BitVec 2) (s : State),
    ((v = 1 ∨ v = 2) → s.phase.busy = false → s.cmd = 0 → hostWrite (.cmd v) s = .next { s with cmd := v }) ∧
    ((v = 0 ∨ v = 3) → hostWrite (.cmd v) s = .next s) ∧
    (s.phase.busy = true ∨ s.cmd ≠ 0 → hostWrite (.cmd v) s = .next s)

/-- R30, R31, R32, R171, R35: what the host reads when the block is not busy and no command waits, by the registers'
numbers: the codes of `PHASE` and `ERR`, the host's own registers, the descriptor and both spaces in `IDLE` and `DONE`,
`OUT_LEN` in `DONE`. What is refused is the model's reading (logs 13 and 17). -/
def Obligations.QuiescentBlockShowsItsRegisters : Prop :=
  ([0, 1, 2, 3, 4, 5, 6, 7, 8, 9, 10].map hostRegOf =
    [some .cmd, some .phase, some .err, some .descWidth, some .descHeight, some .descChannels, some .descColorspace,
      some .reqChannels, some .streamSize, some .outCap, some .outLen]) ∧
  ∀ s : State, s.phase.busy = false → s.cmd = 0 →
    hostReadReg .cmd s = .ok 0 ∧
    (s.phase = .idle → hostReadReg .phase s = .ok 0) ∧
    (s.phase = .done → hostReadReg .phase s = .ok 3) ∧
    (s.phase = .error → hostReadReg .phase s = .ok 4) ∧
    (s.err = .none → hostReadReg .err s = .ok 0) ∧
    (s.err = .invalidArgument → hostReadReg .err s = .ok 1) ∧
    (s.err = .invalidHeader → hostReadReg .err s = .ok 2) ∧
    (s.err = .truncated → hostReadReg .err s = .ok 3) ∧
    (s.err = .outOfMemory → hostReadReg .err s = .ok 4) ∧
    hostReadReg .reqChannels s = .ok (s.reqChannels.setWidth 32) ∧
    hostReadReg .streamSize s = .ok s.streamSize ∧ hostReadReg .outCap s = .ok s.outCap ∧
    (s.phase ≠ .error →
      hostReadReg .descWidth s = .ok s.desc.width ∧ hostReadReg .descHeight s = .ok s.desc.height ∧
      hostReadReg .descChannels s = .ok (s.desc.channels.setWidth 32) ∧
      hostReadReg .descColorspace s = .ok (s.desc.colorspace.setWidth 32) ∧
      (∀ a : Word, hostReadStream a s = .ok (s.stream.read a.toNat)) ∧
      (∀ a : Word, hostReadPixels a s = .ok (s.pixels.read a.toNat))) ∧
    (s.phase = .done → hostReadReg .outLen s = .ok s.outLen) ∧
    (s.phase ≠ .done → hostReadReg .outLen s = .error .hostMoveNotAdmitted)

/-- R190: hardware reset gives `PHASE = IDLE`, `ERR = 0`, `OUT_LEN = 0`; everything else is whatever it is. -/
def Obligations.HardwareResetGivesIdle : Prop :=
  (State.reset.phase = .idle ∧ State.reset.err = .none ∧ State.reset.outLen = 0) ∧
  ∀ any : State, (hardwareReset any).phase = .idle ∧ (hardwareReset any).err = .none ∧ (hardwareReset any).outLen = 0 ∧
    hardwareReset any = { any with phase := .idle, err := .none, outLen := 0, cmd := 0 }

/-- R30: `PHASE` and `ERR` read as their codes while the block is busy, and no other register can be read then (R54,
R168), but for `CMD`, whose read as 0 the model admits then too (log 22). -/
def Obligations.BusyBlockShowsPhaseAndErrOnly : Prop :=
  ∀ s : State, s.phase.busy = true →
    hostReadReg .cmd s = .ok 0 ∧ hostReadReg .phase s = .ok (if s.phase = .busyEnc then 1 else 2) ∧
    hostReadReg .err s = .ok (s.err.code.setWidth 32) ∧
    ∀ r : HostReg, r ≠ .cmd → r ≠ .phase → r ≠ .err → hostReadReg r s = .error .hostMoveNotAdmitted

/-! ## Header codec and datapath -/

/-- R80 and R81: `write32` and `read32` are big-endian and unsigned, high byte first. -/
def Obligations.WordsAreBigEndian : Prop :=
  (∀ (m : Memory) (a : Nat) (v : Word),
    (write32 m a v).2 = a + 4 ∧
    (write32 m a v).1.readBytes a 4 = some
      [BitVec.ofNat 8 (v.toNat / 16777216), BitVec.ofNat 8 (v.toNat / 65536), BitVec.ofNat 8 (v.toNat / 256),
        BitVec.ofNat 8 v.toNat] ∧
    SameOutside a 4 m (write32 m a v).1) ∧
  (∀ (m : Memory) (a : Nat) (b0 b1 b2 b3 : Byte), m.readBytes a 4 = some [b0, b1, b2, b3] →
    ∃ v : Word, read32 m a = some (v, a + 4) ∧
      v.toNat = b0.toNat * 16777216 + b1.toNat * 65536 + b2.toNat * 256 + b3.toNat)

/-- R82: writing a word and reading it back gives it; writing back the word read changes nothing. -/
def Obligations.WordWriteReadIsIdentity : Prop :=
  (∀ (m : Memory) (a : Nat) (v : Word), read32 (write32 m a v).1 a = some (v, a + 4)) ∧
  (∀ (m : Memory) (a : Nat) (v : Word) (o : Nat), m.wf → read32 m a = some (v, o) → (write32 m a v).1 = m)

/-- R107: reading a header that was written gives the magic and the four fields. -/
def Obligations.HeaderRoundTrip : Prop :=
  ∀ (d : Desc) (m : Memory), validDesc d = true →
    readHeader (writeHeader d m) = some (0x716F6966#32, d)

/-- R104: what a valid descriptor is. -/
def Obligations.ValidDescriptorIsTheFourTests : Prop :=
  ∀ d : Desc, validDesc d = true ↔
    d.width.toNat > 0 ∧ d.height.toNat > 0 ∧ d.height.toNat < 400000000 / d.width.toNat ∧
      (d.channels.toNat = 3 ∨ d.channels.toNat = 4) ∧ (d.colorspace.toNat = 0 ∨ d.colorspace.toNat = 1)

/-- R97, R105 and R146: the sizes computed from a valid descriptor. -/
def Obligations.ValidDescriptorBoundsTheSizes : Prop :=
  ∀ d : Desc, validDesc d = true →
    d.width.toNat * d.height.toNat + d.width.toNat ≤ 400000000 ∧
    d.width.toNat * d.height.toNat * d.channels.toNat < 1600000000 ∧
    d.width.toNat * d.height.toNat * (d.channels.toNat + 1) + 22 ≤ 2000000017

/-- R84 and R85: the hash is the sum modulo 64, which never exceeds 6630; 8-bit wrapped arithmetic gives the same low six
bits. -/
def Obligations.HashIsTheLowSixBits : Prop :=
  ∀ q : Pixel,
    (hash q).toNat = (q.r.toNat * 3 + q.g.toNat * 5 + q.b.toNat * 7 + q.a.toNat * 11) % 64 ∧
    q.r.toNat * 3 + q.g.toNat * 5 + q.b.toNat * 7 + q.a.toNat * 11 ≤ 6630 ∧
    hash q = (q.r * 3 + q.g * 5 + q.b * 7 + q.a * 11).setWidth 6

/-- R95: the round-trip law of the delta unit, and its LUMA split; `to_s8` is the narrowing to -128 to 127 (R10). -/
def Obligations.DeltaUnitRoundTrip : Prop :=
  (∀ v : Int, -128 ≤ toS8 v ∧ toS8 v ≤ 127 ∧ (v - toS8 v) % 256 = 0) ∧
  (∀ c p : Byte, applyDelta p (toS8 ((c.toNat : Int) - p.toNat)) = c) ∧
  (∀ cur prev : Pixel,
    applyDelta prev.r ((delta cur prev).g + lumaRed (delta cur prev)) = cur.r ∧
    applyDelta prev.g (delta cur prev).g = cur.g ∧
    applyDelta prev.b ((delta cur prev).g + lumaBlue (delta cur prev)) = cur.b)

/-- R91 and R92: the bounds of the two range tests, inclusive. -/
def Obligations.RangeTestsAreInclusive : Prop :=
  (∀ d : Deltas, inDiff d = true ↔ (-2 ≤ d.r ∧ d.r ≤ 1) ∧ (-2 ≤ d.g ∧ d.g ≤ 1) ∧ (-2 ≤ d.b ∧ d.b ≤ 1)) ∧
  (∀ dG dRG dBG : Int,
    inLuma dG dRG dBG = true ↔ (-32 ≤ dG ∧ dG ≤ 31) ∧ (-8 ≤ dRG ∧ dRG ≤ 7) ∧ (-8 ≤ dBG ∧ dBG ≤ 7))

/-- R93: the narrowing of the green-relative differences cannot be seen by the LUMA test. -/
def Obligations.LumaNarrowingIsInvisible : Prop :=
  ∀ dR dG dB : Int, -128 ≤ dR → dR ≤ 127 → -128 ≤ dG → dG ≤ 127 → -128 ≤ dB → dB ≤ 127 →
    inLuma dG (toS8 (dR - dG)) (toS8 (dB - dG)) = inLuma dG (dR - dG) (dB - dG)
end

