-- ==== Sys2Proof/Laws/Datapath.lean ====
section
/-!
SUPPORT. The laws of the datapath functions: slots of the index table, the conversions, the hash, the predicates.
-/

namespace Sys2Proof.Machine

@[simp] theorem slotGet_slotSet_self (t : IndexTable) (k : BitVec 6) (q : Pixel) : slotGet (slotSet t k q) k = q := by
  simp [slotGet, slotSet]

theorem slotGet_slotSet (t : IndexTable) (k j : BitVec 6) (q : Pixel) :
    slotGet (slotSet t k q) j = if j = k then q else slotGet t j := by
  unfold slotGet slotSet
  rw [Vector.getElem_set]
  by_cases h : j = k
  · subst h; simp
  · rw [if_neg, if_neg h]
    exact fun h' => h (BitVec.eq_of_toNat_eq h'.symm)

@[simp] theorem slotGet_clearTable (k : BitVec 6) : slotGet clearTable k = zeroPixel := by
  simp [slotGet, clearTable]

theorem pixEq_iff (p q : Pixel) : pixEq p q = true ↔ p = q := by
  cases p; cases q
  simp [pixEq, and_assoc]

theorem pixEq_false_iff (p q : Pixel) : pixEq p q = false ↔ p ≠ q := by
  rw [← Bool.not_eq_true, pixEq_iff]

@[simp] theorem pixEq_self (p : Pixel) : pixEq p p = true := (pixEq_iff p p).2 rfl

theorem inDiff_iff (d : Deltas) :
    inDiff d = true ↔ (-2 ≤ d.r ∧ d.r ≤ 1) ∧ (-2 ≤ d.g ∧ d.g ≤ 1) ∧ (-2 ≤ d.b ∧ d.b ≤ 1) := by
  simp [inDiff, and_assoc]

theorem inLuma_iff (g r b : Int) :
    inLuma g r b = true ↔ (-32 ≤ g ∧ g ≤ 31) ∧ (-8 ≤ r ∧ r ≤ 7) ∧ (-8 ≤ b ∧ b ≤ 7) := by
  simp [inLuma, and_assoc]

/-- `to_s8` gives -128 to 127. -/
theorem toS8_range (v : Int) : -128 ≤ toS8 v ∧ toS8 v ≤ 127 := by
  unfold toS8; omega

/-- `to_s8` keeps the value modulo 256. -/
theorem toS8_emod (v : Int) : toS8 v % 256 = v % 256 := by
  unfold toS8; omega

/-- `wrap8` as a number. -/
theorem wrap8_toNat (v : Int) : ((wrap8 v).toNat : Int) = v % 256 := by
  unfold wrap8
  rw [BitVec.toNat_ofInt]
  omega

theorem applyDelta_toNat (c : Byte) (d : Int) : ((applyDelta c d).toNat : Int) = (c.toNat + d) % 256 := wrap8_toNat _

theorem hash_toNat (q : Pixel) :
    (hash q).toNat = (q.r.toNat * 3 + q.g.toNat * 5 + q.b.toNat * 7 + q.a.toNat * 11) % 64 := by
  simp [hash]

@[simp] theorem outBytes_length (c : OutChannels) (q : Pixel) : (outBytes c q).length = c.count := by
  cases c <;> rfl

/-- What a valid descriptor is (R104). -/
theorem validDesc_iff (d : Desc) :
    validDesc d = true ↔ d.width ≠ 0 ∧ d.height ≠ 0 ∧ (d.channels = 3 ∨ d.channels = 4) ∧
      (d.colorspace = 0 ∨ d.colorspace = 1) ∧ d.height.toNat < 400000000 / d.width.toNat := by
  unfold validDesc
  by_cases h1 : d.width = 0 ∨ d.height = 0
  · rw [if_pos h1]; simp; tauto
  · rw [if_neg h1]
    by_cases h2 : d.channels ≠ 3 ∧ d.channels ≠ 4
    · rw [if_pos h2]; simp; tauto
    · rw [if_neg h2]
      by_cases h3 : d.colorspace ≠ 0 ∧ d.colorspace ≠ 1
      · rw [if_pos h3]; simp; tauto
      · rw [if_neg h3]; simp; tauto

end Sys2Proof.Machine
end

