-- ==== Sys2Proof/Laws/Memory.lean ====
section
/-!
SUPPORT. The laws of memory: read after write, the canonical form, multi-byte access, the extent of the loaded stretch.
-/

namespace Sys2Proof.Machine

@[simp] theorem Memory.read_nil (a : Nat) : Memory.read [] a = none := rfl

theorem Memory.read_cons (x : Nat) (v : Byte) (m : Memory) (a : Nat) :
    Memory.read ((x, v) :: m) a = if a = x then some v else Memory.read m a := rfl

/-- Nothing is listed below the addresses of a memory. -/
theorem Memory.read_below {m : Memory} {e : Nat} (h : ∀ c ∈ m, e < c.1) : m.read e = none := by
  induction m with
  | nil => rfl
  | cons c m ih =>
    obtain ⟨y, w⟩ := c
    have hy : e < y := h (y, w) (by simp)
    rw [Memory.read_cons, if_neg (by omega)]
    exact ih fun d hd => h d (by simp [hd])

/-- A read after a write to the same place gives the value written. -/
@[simp] theorem Memory.read_write_self (m : Memory) (a : Nat) (b : Byte) : (m.write a b).read a = some b := by
  induction m with
  | nil => simp [Memory.write, Memory.read]
  | cons c m ih =>
    obtain ⟨x, v⟩ := c
    simp only [Memory.write]
    split
    · simp [Memory.read]
    · split
      · simp [Memory.read]
      · rename_i _ h
        simp [Memory.read, h, ih]

/-- A write leaves every other place alone. -/
theorem Memory.read_write_of_ne (m : Memory) {a x : Nat} (b : Byte) (h : x ≠ a) : (m.write a b).read x = m.read x := by
  induction m with
  | nil => simp [Memory.write, Memory.read, h]
  | cons c m ih =>
    obtain ⟨y, v⟩ := c
    simp only [Memory.write]
    split
    · simp [Memory.read, h]
    · split
      · rename_i _ hy
        subst hy
        simp [Memory.read, h]
      · simp [Memory.read, ih]

theorem Memory.read_write (m : Memory) (a x : Nat) (b : Byte) :
    (m.write a b).read x = if x = a then some b else m.read x := by
  split
  · subst_vars; simp
  · exact m.read_write_of_ne b ‹_›

/-- The addresses of a written memory: the written one and the old ones. -/
theorem Memory.mem_write {m : Memory} {a : Nat} {b : Byte} {c : Host.Cell} (h : c ∈ m.write a b) :
    c.1 = a ∨ c ∈ m := by
  induction m with
  | nil => simp [Memory.write] at h; simp [h]
  | cons d m ih =>
    obtain ⟨x, v⟩ := d
    simp only [Memory.write] at h
    split at h
    · simp only [List.mem_cons] at h ⊢
      rcases h with h | h | h
      · simp [h]
      · simp [h]
      · simp [h]
    · split at h
      · simp only [List.mem_cons] at h ⊢
        rcases h with h | h
        · simp [h]
        · simp [h]
      · simp only [List.mem_cons] at h ⊢
        rcases h with h | h
        · simp [h]
        · rcases ih h with h | h
          · exact .inl h
          · simp [h]

/-- A write keeps the canonical form. -/
theorem Memory.write_wf {m : Memory} {a : Nat} {b : Byte} (hm : m.wf) (ha : a < Config.addressSpace) :
    (m.write a b).wf := by
  refine ⟨?_, fun c hc => ?_⟩
  · obtain ⟨hp, -⟩ := hm
    induction m with
    | nil => simp [Memory.write]
    | cons c m ih =>
      obtain ⟨x, v⟩ := c
      rw [List.pairwise_cons] at hp
      obtain ⟨hx, hm⟩ := hp
      simp only [Memory.write]
      split
      · rename_i hlt
        refine List.pairwise_cons.2 ⟨fun d hd => ?_, List.pairwise_cons.2 ⟨hx, hm⟩⟩
        rcases List.mem_cons.1 hd with rfl | hd
        · exact hlt
        · exact lt_trans hlt (hx d hd)
      · split
        · rename_i _ heq
          subst heq
          exact List.pairwise_cons.2 ⟨fun d hd => hx d hd, hm⟩
        · refine List.pairwise_cons.2 ⟨fun d hd => ?_, ih hm⟩
          rcases Memory.mem_write hd with h | h
          · simp only [h]; omega
          · exact hx d h
  · rcases Memory.mem_write hc with h | h
    · omega
    · exact hm.2 c h

/-- Writing the value that stands there changes nothing. -/
theorem Memory.write_of_read {m : Memory} {a : Nat} {b : Byte} (hm : m.wf) (h : m.read a = some b) :
    m.write a b = m := by
  obtain ⟨hp, -⟩ := hm
  revert hp h
  induction m with
  | nil => intro h; simp at h
  | cons c m ih =>
    obtain ⟨x, v⟩ := c
    intro h hp
    rw [List.pairwise_cons] at hp
    rw [Memory.read_cons] at h
    by_cases hax : a = x
    · subst hax
      simp only [if_true] at h
      simp [Memory.write, Option.some.inj h]
    · rw [if_neg hax] at h
      have hlt : ¬ a < x := by
        intro hlt
        rw [Memory.read_below fun d hd => lt_trans hlt (hp.1 d hd)] at h
        cases h
      simp [Memory.write, hlt, hax, ih h hp.2]

@[simp] theorem Memory.writeBytes_nil (m : Memory) (a : Nat) : m.writeBytes a [] = m := rfl

@[simp] theorem Memory.writeBytes_cons (m : Memory) (a : Nat) (b : Byte) (bs : List Byte) :
    m.writeBytes a (b :: bs) = (m.write a b).writeBytes (a + 1) bs := rfl

theorem Memory.writeBytes_wf {bs : List Byte} {m : Memory} {a : Nat} (hm : m.wf)
    (h : a + bs.length ≤ Config.addressSpace) : (m.writeBytes a bs).wf := by
  induction bs generalizing m a with
  | nil => exact hm
  | cons b bs ih =>
    simp only [List.length_cons] at h
    exact ih (Memory.write_wf hm (by omega)) (by omega)

/-- Reading any byte after a multi-byte write. -/
theorem Memory.read_writeBytes (bs : List Byte) (m : Memory) (a x : Nat) :
    (m.writeBytes a bs).read x = if a ≤ x ∧ x < a + bs.length then bs[x - a]? else m.read x := by
  induction bs generalizing m a with
  | nil => rw [if_neg (by simp)]; rfl
  | cons b bs ih =>
    rw [Memory.writeBytes_cons, ih, Memory.read_write]
    simp only [List.length_cons]
    by_cases h1 : x = a
    · subst h1
      rw [if_neg (by omega), if_pos rfl, if_pos (by omega)]
      simp
    · by_cases h2 : a + 1 ≤ x ∧ x < a + 1 + bs.length
      · rw [if_pos h2, if_pos (by omega)]
        obtain ⟨k, rfl⟩ : ∃ k, x = a + 1 + k := ⟨x - (a + 1), by omega⟩
        rw [show a + 1 + k - (a + 1) = k by omega, show a + 1 + k - a = k + 1 by omega]
        simp
      · rw [if_neg h2, if_neg h1, if_neg (by omega)]

/-- A multi-byte write leaves every byte outside it alone. -/
theorem Memory.read_writeBytes_outside (bs : List Byte) (m : Memory) {a x : Nat}
    (h : x < a ∨ a + bs.length ≤ x) : (m.writeBytes a bs).read x = m.read x := by
  rw [Memory.read_writeBytes, if_neg (by omega)]

@[simp] theorem Memory.readBytes_zero (m : Memory) (a : Nat) : m.readBytes a 0 = some [] := rfl

/-- A multi-byte read gives `bs` exactly when every byte of it reads as listed. -/
theorem Memory.readBytes_eq_some {m : Memory} {a n : Nat} {bs : List Byte} :
    m.readBytes a n = some bs ↔ bs.length = n ∧ ∀ k, k < n → m.read (a + k) = bs[k]? := by
  induction n generalizing a bs with
  | zero =>
    rw [Memory.readBytes, List.length_eq_zero_iff]
    exact ⟨fun h => ⟨(Option.some.inj h).symm, fun k hk => by omega⟩, fun h => by rw [h.1]⟩
  | succ n ih =>
    simp only [Memory.readBytes]
    constructor
    · intro h
      split at h
      · rename_i b bs' hb hbs
        obtain ⟨hl, hr⟩ := ih.1 hbs
        cases h
        refine ⟨by simp [hl], fun k hk => ?_⟩
        cases k with
        | zero => simpa using hb
        | succ k =>
          have := hr k (by omega)
          simpa [Nat.add_assoc, Nat.add_comm 1 k] using this
      · cases h
    · rintro ⟨hl, hr⟩
      cases bs with
      | nil => simp at hl
      | cons b bs' =>
        have h0 : m.read a = some b := by simpa using hr 0 (by omega)
        have h1 : m.readBytes (a + 1) n = some bs' := by
          refine ih.2 ⟨by simpa using hl, fun k hk => ?_⟩
          have := hr (k + 1) (by omega)
          simpa [Nat.add_assoc, Nat.add_comm 1 k] using this
        simp [h0, h1]

/-- Reading back what was written. -/
@[simp] theorem Memory.readBytes_writeBytes (m : Memory) (a : Nat) (bs : List Byte) :
    (m.writeBytes a bs).readBytes a bs.length = some bs := by
  refine Memory.readBytes_eq_some.2 ⟨rfl, fun k hk => ?_⟩
  rw [Memory.read_writeBytes, if_pos (by omega)]
  congr 1; omega

/-- A multi-byte read depends on its own bytes only. -/
theorem Memory.readBytes_congr {m n : Memory} {a len : Nat} (h : ∀ k, k < len → n.read (a + k) = m.read (a + k)) :
    n.readBytes a len = m.readBytes a len := by
  induction len generalizing a with
  | zero => rfl
  | succ len ih =>
    have h0 : n.read a = m.read a := by simpa using h 0 (by omega)
    have h1 : n.readBytes (a + 1) len = m.readBytes (a + 1) len := ih fun k hk => by
      have := h (k + 1) (by omega)
      simpa [Nat.add_assoc, Nat.add_comm 1 k] using this
    simp [Memory.readBytes, h0, h1]

/-- A multi-byte read succeeds exactly when every byte is there. -/
theorem Memory.readBytes_isSome {m : Memory} {a n : Nat} :
    (m.readBytes a n).isSome = true ↔ ∀ k, k < n → (m.read (a + k)).isSome = true := by
  induction n generalizing a with
  | zero => simp
  | succ n ih =>
    constructor
    · intro h k hk
      simp only [Memory.readBytes] at h
      split at h
      · rename_i b bs hb hbs
        cases k with
        | zero => simp [hb]
        | succ k =>
          have := ih.1 (by rw [hbs]; rfl) k (by omega)
          simpa [Nat.add_assoc, Nat.add_comm 1 k] using this
      · cases h
    · intro h
      have h0 : (m.read a).isSome = true := by simpa using h 0 (by omega)
      have h1 : (m.readBytes (a + 1) n).isSome = true := ih.2 fun k hk => by
        have := h (k + 1) (by omega)
        simpa [Nat.add_assoc, Nat.add_comm 1 k] using this
      obtain ⟨b, hb⟩ := Option.isSome_iff_exists.1 h0
      obtain ⟨bs, hbs⟩ := Option.isSome_iff_exists.1 h1
      simp [Memory.readBytes, hb, hbs]

/-- The loaded stretch from `e` on holds every address below its end. -/
theorem Memory.extentFrom_read {m : Memory} {e a : Nat} (h1 : e ≤ a) (h2 : a < m.extentFrom e) :
    (m.read a).isSome = true := by
  induction m generalizing e with
  | nil => simp only [Memory.extentFrom] at h2; omega
  | cons c m ih =>
    obtain ⟨x, v⟩ := c
    simp only [Memory.extentFrom] at h2
    split at h2
    · subst_vars
      rw [Memory.read_cons]
      split
      · rfl
      · exact ih (by omega) h2
    · omega

/-- A space that covers `n` holds a byte at every address below `n`. -/
theorem Memory.covers_read {m : Memory} {n a : Nat} (h : m.covers n = true) (ha : a < n) :
    (m.read a).isSome = true :=
  Memory.extentFrom_read (Nat.zero_le a) (lt_of_lt_of_le ha (of_decide_eq_true h))

theorem Memory.covers_readBytes {m : Memory} {n a len : Nat} (h : m.covers n = true) (ha : a + len ≤ n) :
    (m.readBytes a len).isSome = true :=
  Memory.readBytes_isSome.2 fun _ hk => Memory.covers_read h (by omega)

theorem Memory.covers_mono {m : Memory} {n k : Nat} (h : m.covers n = true) (hk : k ≤ n) : m.covers k = true :=
  decide_eq_true (le_trans hk (of_decide_eq_true h))

/-- In a canonical memory the loaded stretch ends at the first address that holds nothing. -/
theorem Memory.extentFrom_complete {m : Memory} {e : Nat} (hp : m.Pairwise fun x y => x.1 < y.1)
    (he : ∀ c ∈ m, e ≤ c.1) : m.read (m.extentFrom e) = none := by
  induction m generalizing e with
  | nil => rfl
  | cons c m ih =>
    obtain ⟨x, v⟩ := c
    rw [List.pairwise_cons] at hp
    have hx : e ≤ x := he (x, v) (by simp)
    simp only [Memory.extentFrom]
    split
    · subst_vars
      have hm : ∀ d ∈ m, x + 1 ≤ d.1 := fun d hd => hp.1 d hd
      have hle : ∀ (m : Memory) (k : Nat), k ≤ m.extentFrom k := by
        intro m
        induction m with
        | nil => exact fun k => le_refl k
        | cons d m ih' =>
          obtain ⟨y, w⟩ := d
          intro k
          simp only [Memory.extentFrom]
          split
          · exact le_trans (Nat.le_succ k) (ih' (k + 1))
          · exact le_refl k
      have := hle m (x + 1)
      rw [Memory.read_cons, if_neg (by omega)]
      exact ih hp.2 hm
    · rename_i hne
      rw [Memory.read_cons, if_neg (by omega)]
      exact Memory.read_below fun d hd => lt_trans (by omega : e < x) (hp.1 d hd)

/-- The launch premise `input_loaded`: a canonical memory covers `n` exactly when it holds a byte at every address
below `n`. -/
theorem Memory.covers_iff {m : Memory} {n : Nat} (hm : m.wf) :
    m.covers n = true ↔ ∀ a, a < n → (m.read a).isSome = true := by
  refine ⟨fun h a ha => Memory.covers_read h ha, fun h => decide_eq_true ?_⟩
  by_contra hn
  have h1 := h (m.extentFrom 0) (by omega)
  rw [Memory.extentFrom_complete hm.1 fun c _ => Nat.zero_le c.1] at h1
  cases h1

/-- A memory that reaches as far as it is long holds nothing outside its stretch. -/
theorem Memory.extentFrom_full {m : Memory} {e a : Nat} (h : e + m.length ≤ m.extentFrom e)
    (ha : (m.read a).isSome = true) : e ≤ a ∧ a < e + m.length := by
  induction m generalizing e with
  | nil => cases ha
  | cons c m ih =>
    obtain ⟨x, v⟩ := c
    simp only [Memory.extentFrom, List.length_cons] at h ⊢
    split at h
    · subst_vars
      rw [Memory.read_cons] at ha
      split at ha
      · omega
      · have := ih (e := x + 1) (by omega) ha
        omega
    · omega

/-- In a canonical memory that holds every address from `e` to `n` and none from `n` on, each of them is listed once. -/
theorem Memory.length_of_full {m : Memory} {e n : Nat} (hp : m.Pairwise fun x y => x.1 < y.1)
    (he : ∀ c ∈ m, e ≤ c.1) (hen : e ≤ n) (h : ∀ a, e ≤ a → ((m.read a).isSome = true ↔ a < n)) : e + m.length = n := by
  induction m generalizing e with
  | nil =>
    by_contra hne
    have := (h e (le_refl e)).2 (by simp only [List.length_nil] at hne; omega)
    cases this
  | cons c m ih =>
    obtain ⟨x, v⟩ := c
    rw [List.pairwise_cons] at hp
    have hx : e ≤ x := he (x, v) (by simp)
    have hxn : x < n := (h x hx).1 (by rw [Memory.read_cons, if_pos rfl]; rfl)
    have hex : e = x := by
      by_contra hne
      have h1 := (h e (le_refl e)).2 (by omega)
      rw [Memory.read_cons, if_neg hne,
        Memory.read_below fun d hd => lt_trans (by omega : e < x) (hp.1 d hd)] at h1
      cases h1
    subst hex
    have := ih (e := e + 1) hp.2 (fun d hd => hp.1 d hd) hxn fun a ha => by
      rw [← h a (by omega), Memory.read_cons, if_neg (by omega)]
    simp only [List.length_cons]
    omega

/-- A space that holds exactly `n` bytes covers `n`. -/
theorem Memory.holdsExactly_covers {m : Memory} {n : Nat} (h : m.holdsExactly n = true) : m.covers n = true :=
  (Bool.and_eq_true_iff.1 h).1

/-- The launch premise `input_loaded` (R51, R193): a canonical memory holds exactly `n` bytes when the addresses that
hold one are those below `n`. -/
theorem Memory.holdsExactly_iff {m : Memory} {n : Nat} (hm : m.wf) :
    m.holdsExactly n = true ↔ ∀ a, (m.read a).isSome = true ↔ a < n := by
  constructor
  · intro h a
    refine ⟨fun ha => ?_, Memory.covers_read (Memory.holdsExactly_covers h)⟩
    obtain ⟨h1, h2⟩ := Bool.and_eq_true_iff.1 h
    have h1 := of_decide_eq_true h1
    have h2 := of_decide_eq_true h2
    have := Memory.extentFrom_full (e := 0) (by omega) ha
    omega
  · intro h
    have hl := Memory.length_of_full hm.1 (fun c _ => Nat.zero_le c.1) (Nat.zero_le n) fun a _ => h a
    exact Bool.and_eq_true_iff.2 ⟨(Memory.covers_iff hm).2 fun a => (h a).2, decide_eq_true (by omega)⟩

/-- Two canonical memories that read alike are equal: the canonical form is one for each content. -/
theorem Memory.ext_of_wf {m n : Memory} (hm : m.wf) (hn : n.wf) (h : ∀ a, m.read a = n.read a) : m = n := by
  obtain ⟨hm, -⟩ := hm
  obtain ⟨hn, -⟩ := hn
  revert hm hn h
  induction m generalizing n with
  | nil =>
    intro h hm hn
    cases n with
    | nil => rfl
    | cons d n =>
      have := h d.1
      rw [Memory.read_cons, if_pos rfl] at this
      cases this
  | cons c m ih =>
    obtain ⟨x, v⟩ := c
    intro h hm hn
    cases n with
    | nil =>
      have := h x
      rw [Memory.read_cons, if_pos rfl] at this
      cases this
    | cons d n =>
      obtain ⟨y, w⟩ := d
      rw [List.pairwise_cons] at hm hn
      have hxm : ∀ d ∈ m, x < d.1 := fun d hd => hm.1 d hd
      have hyn : ∀ d ∈ n, y < d.1 := fun d hd => hn.1 d hd
      have hxy : x = y := by
        rcases lt_trichotomy x y with hlt | heq | hlt
        · have := h x
          rw [Memory.read_cons, if_pos rfl, Memory.read_cons, if_neg (by omega),
            Memory.read_below fun d hd => lt_trans hlt (hyn d hd)] at this
          cases this
        · exact heq
        · have := h y
          rw [Memory.read_cons, if_neg (by omega), Memory.read_below fun d hd => lt_trans hlt (hxm d hd),
            Memory.read_cons, if_pos rfl] at this
          cases this
      subst hxy
      have hv : v = w := by
        have := h x
        rw [Memory.read_cons, if_pos rfl, Memory.read_cons, if_pos rfl] at this
        exact Option.some.inj this
      subst hv
      congr 1
      refine ih (fun a => ?_) hm.2 hn.2
      have := h a
      rw [Memory.read_cons, Memory.read_cons] at this
      by_cases hax : a = x
      · subst hax
        rw [Memory.read_below hxm, Memory.read_below hyn]
      · rwa [if_neg hax, if_neg hax] at this

end Sys2Proof.Machine
end

