-- ==== Sys2Proof/Laws/State.lean ====
section
/-!
SUPPORT. One lemma per field per register update of Machine/Ops.lean, true by rfl, so that no proof unfolds a record
update.
-/

namespace Sys2Proof.Machine

/-! setPx -/

@[simp] theorem State.setPx_px (q : Pixel) (s : State) : (s.setPx q).px = q := rfl
@[simp] theorem State.setPx_run (q : Pixel) (s : State) : (s.setPx q).run = s.run := rfl
@[simp] theorem State.setPx_idx (q : Pixel) (s : State) : (s.setPx q).idx = s.idx := rfl
@[simp] theorem State.setPx_p (q : Pixel) (s : State) : (s.setPx q).p = s.p := rfl
@[simp] theorem State.setPx_pxpos (q : Pixel) (s : State) : (s.setPx q).pxpos = s.pxpos := rfl
@[simp] theorem State.setPx_pxlen (q : Pixel) (s : State) : (s.setPx q).pxlen = s.pxlen := rfl
@[simp] theorem State.setPx_outCh (q : Pixel) (s : State) : (s.setPx q).outCh = s.outCh := rfl
@[simp] theorem State.setPx_cmd (q : Pixel) (s : State) : (s.setPx q).cmd = s.cmd := rfl
@[simp] theorem State.setPx_phase (q : Pixel) (s : State) : (s.setPx q).phase = s.phase := rfl
@[simp] theorem State.setPx_err (q : Pixel) (s : State) : (s.setPx q).err = s.err := rfl
@[simp] theorem State.setPx_desc (q : Pixel) (s : State) : (s.setPx q).desc = s.desc := rfl
@[simp] theorem State.setPx_reqChannels (q : Pixel) (s : State) : (s.setPx q).reqChannels = s.reqChannels := rfl
@[simp] theorem State.setPx_streamSize (q : Pixel) (s : State) : (s.setPx q).streamSize = s.streamSize := rfl
@[simp] theorem State.setPx_outCap (q : Pixel) (s : State) : (s.setPx q).outCap = s.outCap := rfl
@[simp] theorem State.setPx_outLen (q : Pixel) (s : State) : (s.setPx q).outLen = s.outLen := rfl
@[simp] theorem State.setPx_stream (q : Pixel) (s : State) : (s.setPx q).stream = s.stream := rfl
@[simp] theorem State.setPx_pixels (q : Pixel) (s : State) : (s.setPx q).pixels = s.pixels := rfl

/-! setRun -/

@[simp] theorem State.setRun_px (n : BitVec 6) (s : State) : (s.setRun n).px = s.px := rfl
@[simp] theorem State.setRun_run (n : BitVec 6) (s : State) : (s.setRun n).run = n := rfl
@[simp] theorem State.setRun_idx (n : BitVec 6) (s : State) : (s.setRun n).idx = s.idx := rfl
@[simp] theorem State.setRun_p (n : BitVec 6) (s : State) : (s.setRun n).p = s.p := rfl
@[simp] theorem State.setRun_pxpos (n : BitVec 6) (s : State) : (s.setRun n).pxpos = s.pxpos := rfl
@[simp] theorem State.setRun_pxlen (n : BitVec 6) (s : State) : (s.setRun n).pxlen = s.pxlen := rfl
@[simp] theorem State.setRun_outCh (n : BitVec 6) (s : State) : (s.setRun n).outCh = s.outCh := rfl
@[simp] theorem State.setRun_cmd (n : BitVec 6) (s : State) : (s.setRun n).cmd = s.cmd := rfl
@[simp] theorem State.setRun_phase (n : BitVec 6) (s : State) : (s.setRun n).phase = s.phase := rfl
@[simp] theorem State.setRun_err (n : BitVec 6) (s : State) : (s.setRun n).err = s.err := rfl
@[simp] theorem State.setRun_desc (n : BitVec 6) (s : State) : (s.setRun n).desc = s.desc := rfl
@[simp] theorem State.setRun_reqChannels (n : BitVec 6) (s : State) : (s.setRun n).reqChannels = s.reqChannels := rfl
@[simp] theorem State.setRun_streamSize (n : BitVec 6) (s : State) : (s.setRun n).streamSize = s.streamSize := rfl
@[simp] theorem State.setRun_outCap (n : BitVec 6) (s : State) : (s.setRun n).outCap = s.outCap := rfl
@[simp] theorem State.setRun_outLen (n : BitVec 6) (s : State) : (s.setRun n).outLen = s.outLen := rfl
@[simp] theorem State.setRun_stream (n : BitVec 6) (s : State) : (s.setRun n).stream = s.stream := rfl
@[simp] theorem State.setRun_pixels (n : BitVec 6) (s : State) : (s.setRun n).pixels = s.pixels := rfl

/-! setIdx -/

@[simp] theorem State.setIdx_px (t : IndexTable) (s : State) : (s.setIdx t).px = s.px := rfl
@[simp] theorem State.setIdx_run (t : IndexTable) (s : State) : (s.setIdx t).run = s.run := rfl
@[simp] theorem State.setIdx_idx (t : IndexTable) (s : State) : (s.setIdx t).idx = t := rfl
@[simp] theorem State.setIdx_p (t : IndexTable) (s : State) : (s.setIdx t).p = s.p := rfl
@[simp] theorem State.setIdx_pxpos (t : IndexTable) (s : State) : (s.setIdx t).pxpos = s.pxpos := rfl
@[simp] theorem State.setIdx_pxlen (t : IndexTable) (s : State) : (s.setIdx t).pxlen = s.pxlen := rfl
@[simp] theorem State.setIdx_outCh (t : IndexTable) (s : State) : (s.setIdx t).outCh = s.outCh := rfl
@[simp] theorem State.setIdx_cmd (t : IndexTable) (s : State) : (s.setIdx t).cmd = s.cmd := rfl
@[simp] theorem State.setIdx_phase (t : IndexTable) (s : State) : (s.setIdx t).phase = s.phase := rfl
@[simp] theorem State.setIdx_err (t : IndexTable) (s : State) : (s.setIdx t).err = s.err := rfl
@[simp] theorem State.setIdx_desc (t : IndexTable) (s : State) : (s.setIdx t).desc = s.desc := rfl
@[simp] theorem State.setIdx_reqChannels (t : IndexTable) (s : State) : (s.setIdx t).reqChannels = s.reqChannels := rfl
@[simp] theorem State.setIdx_streamSize (t : IndexTable) (s : State) : (s.setIdx t).streamSize = s.streamSize := rfl
@[simp] theorem State.setIdx_outCap (t : IndexTable) (s : State) : (s.setIdx t).outCap = s.outCap := rfl
@[simp] theorem State.setIdx_outLen (t : IndexTable) (s : State) : (s.setIdx t).outLen = s.outLen := rfl
@[simp] theorem State.setIdx_stream (t : IndexTable) (s : State) : (s.setIdx t).stream = s.stream := rfl
@[simp] theorem State.setIdx_pixels (t : IndexTable) (s : State) : (s.setIdx t).pixels = s.pixels := rfl

/-! setP -/

@[simp] theorem State.setP_px (v : Word) (s : State) : (s.setP v).px = s.px := rfl
@[simp] theorem State.setP_run (v : Word) (s : State) : (s.setP v).run = s.run := rfl
@[simp] theorem State.setP_idx (v : Word) (s : State) : (s.setP v).idx = s.idx := rfl
@[simp] theorem State.setP_p (v : Word) (s : State) : (s.setP v).p = v := rfl
@[simp] theorem State.setP_pxpos (v : Word) (s : State) : (s.setP v).pxpos = s.pxpos := rfl
@[simp] theorem State.setP_pxlen (v : Word) (s : State) : (s.setP v).pxlen = s.pxlen := rfl
@[simp] theorem State.setP_outCh (v : Word) (s : State) : (s.setP v).outCh = s.outCh := rfl
@[simp] theorem State.setP_cmd (v : Word) (s : State) : (s.setP v).cmd = s.cmd := rfl
@[simp] theorem State.setP_phase (v : Word) (s : State) : (s.setP v).phase = s.phase := rfl
@[simp] theorem State.setP_err (v : Word) (s : State) : (s.setP v).err = s.err := rfl
@[simp] theorem State.setP_desc (v : Word) (s : State) : (s.setP v).desc = s.desc := rfl
@[simp] theorem State.setP_reqChannels (v : Word) (s : State) : (s.setP v).reqChannels = s.reqChannels := rfl
@[simp] theorem State.setP_streamSize (v : Word) (s : State) : (s.setP v).streamSize = s.streamSize := rfl
@[simp] theorem State.setP_outCap (v : Word) (s : State) : (s.setP v).outCap = s.outCap := rfl
@[simp] theorem State.setP_outLen (v : Word) (s : State) : (s.setP v).outLen = s.outLen := rfl
@[simp] theorem State.setP_stream (v : Word) (s : State) : (s.setP v).stream = s.stream := rfl
@[simp] theorem State.setP_pixels (v : Word) (s : State) : (s.setP v).pixels = s.pixels := rfl

/-! setPxpos -/

@[simp] theorem State.setPxpos_px (v : Word) (s : State) : (s.setPxpos v).px = s.px := rfl
@[simp] theorem State.setPxpos_run (v : Word) (s : State) : (s.setPxpos v).run = s.run := rfl
@[simp] theorem State.setPxpos_idx (v : Word) (s : State) : (s.setPxpos v).idx = s.idx := rfl
@[simp] theorem State.setPxpos_p (v : Word) (s : State) : (s.setPxpos v).p = s.p := rfl
@[simp] theorem State.setPxpos_pxpos (v : Word) (s : State) : (s.setPxpos v).pxpos = v := rfl
@[simp] theorem State.setPxpos_pxlen (v : Word) (s : State) : (s.setPxpos v).pxlen = s.pxlen := rfl
@[simp] theorem State.setPxpos_outCh (v : Word) (s : State) : (s.setPxpos v).outCh = s.outCh := rfl
@[simp] theorem State.setPxpos_cmd (v : Word) (s : State) : (s.setPxpos v).cmd = s.cmd := rfl
@[simp] theorem State.setPxpos_phase (v : Word) (s : State) : (s.setPxpos v).phase = s.phase := rfl
@[simp] theorem State.setPxpos_err (v : Word) (s : State) : (s.setPxpos v).err = s.err := rfl
@[simp] theorem State.setPxpos_desc (v : Word) (s : State) : (s.setPxpos v).desc = s.desc := rfl
@[simp] theorem State.setPxpos_reqChannels (v : Word) (s : State) : (s.setPxpos v).reqChannels = s.reqChannels := rfl
@[simp] theorem State.setPxpos_streamSize (v : Word) (s : State) : (s.setPxpos v).streamSize = s.streamSize := rfl
@[simp] theorem State.setPxpos_outCap (v : Word) (s : State) : (s.setPxpos v).outCap = s.outCap := rfl
@[simp] theorem State.setPxpos_outLen (v : Word) (s : State) : (s.setPxpos v).outLen = s.outLen := rfl
@[simp] theorem State.setPxpos_stream (v : Word) (s : State) : (s.setPxpos v).stream = s.stream := rfl
@[simp] theorem State.setPxpos_pixels (v : Word) (s : State) : (s.setPxpos v).pixels = s.pixels := rfl

/-! setStream -/

@[simp] theorem State.setStream_px (m : Memory) (s : State) : (s.setStream m).px = s.px := rfl
@[simp] theorem State.setStream_run (m : Memory) (s : State) : (s.setStream m).run = s.run := rfl
@[simp] theorem State.setStream_idx (m : Memory) (s : State) : (s.setStream m).idx = s.idx := rfl
@[simp] theorem State.setStream_p (m : Memory) (s : State) : (s.setStream m).p = s.p := rfl
@[simp] theorem State.setStream_pxpos (m : Memory) (s : State) : (s.setStream m).pxpos = s.pxpos := rfl
@[simp] theorem State.setStream_pxlen (m : Memory) (s : State) : (s.setStream m).pxlen = s.pxlen := rfl
@[simp] theorem State.setStream_outCh (m : Memory) (s : State) : (s.setStream m).outCh = s.outCh := rfl
@[simp] theorem State.setStream_cmd (m : Memory) (s : State) : (s.setStream m).cmd = s.cmd := rfl
@[simp] theorem State.setStream_phase (m : Memory) (s : State) : (s.setStream m).phase = s.phase := rfl
@[simp] theorem State.setStream_err (m : Memory) (s : State) : (s.setStream m).err = s.err := rfl
@[simp] theorem State.setStream_desc (m : Memory) (s : State) : (s.setStream m).desc = s.desc := rfl
@[simp] theorem State.setStream_reqChannels (m : Memory) (s : State) : (s.setStream m).reqChannels = s.reqChannels := rfl
@[simp] theorem State.setStream_streamSize (m : Memory) (s : State) : (s.setStream m).streamSize = s.streamSize := rfl
@[simp] theorem State.setStream_outCap (m : Memory) (s : State) : (s.setStream m).outCap = s.outCap := rfl
@[simp] theorem State.setStream_outLen (m : Memory) (s : State) : (s.setStream m).outLen = s.outLen := rfl
@[simp] theorem State.setStream_stream (m : Memory) (s : State) : (s.setStream m).stream = m := rfl
@[simp] theorem State.setStream_pixels (m : Memory) (s : State) : (s.setStream m).pixels = s.pixels := rfl

/-! setPixels -/

@[simp] theorem State.setPixels_px (m : Memory) (s : State) : (s.setPixels m).px = s.px := rfl
@[simp] theorem State.setPixels_run (m : Memory) (s : State) : (s.setPixels m).run = s.run := rfl
@[simp] theorem State.setPixels_idx (m : Memory) (s : State) : (s.setPixels m).idx = s.idx := rfl
@[simp] theorem State.setPixels_p (m : Memory) (s : State) : (s.setPixels m).p = s.p := rfl
@[simp] theorem State.setPixels_pxpos (m : Memory) (s : State) : (s.setPixels m).pxpos = s.pxpos := rfl
@[simp] theorem State.setPixels_pxlen (m : Memory) (s : State) : (s.setPixels m).pxlen = s.pxlen := rfl
@[simp] theorem State.setPixels_outCh (m : Memory) (s : State) : (s.setPixels m).outCh = s.outCh := rfl
@[simp] theorem State.setPixels_cmd (m : Memory) (s : State) : (s.setPixels m).cmd = s.cmd := rfl
@[simp] theorem State.setPixels_phase (m : Memory) (s : State) : (s.setPixels m).phase = s.phase := rfl
@[simp] theorem State.setPixels_err (m : Memory) (s : State) : (s.setPixels m).err = s.err := rfl
@[simp] theorem State.setPixels_desc (m : Memory) (s : State) : (s.setPixels m).desc = s.desc := rfl
@[simp] theorem State.setPixels_reqChannels (m : Memory) (s : State) : (s.setPixels m).reqChannels = s.reqChannels := rfl
@[simp] theorem State.setPixels_streamSize (m : Memory) (s : State) : (s.setPixels m).streamSize = s.streamSize := rfl
@[simp] theorem State.setPixels_outCap (m : Memory) (s : State) : (s.setPixels m).outCap = s.outCap := rfl
@[simp] theorem State.setPixels_outLen (m : Memory) (s : State) : (s.setPixels m).outLen = s.outLen := rfl
@[simp] theorem State.setPixels_stream (m : Memory) (s : State) : (s.setPixels m).stream = s.stream := rfl
@[simp] theorem State.setPixels_pixels (m : Memory) (s : State) : (s.setPixels m).pixels = m := rfl

/-! setCmd -/

@[simp] theorem State.setCmd_px (c : BitVec 2) (s : State) : (s.setCmd c).px = s.px := rfl
@[simp] theorem State.setCmd_run (c : BitVec 2) (s : State) : (s.setCmd c).run = s.run := rfl
@[simp] theorem State.setCmd_idx (c : BitVec 2) (s : State) : (s.setCmd c).idx = s.idx := rfl
@[simp] theorem State.setCmd_p (c : BitVec 2) (s : State) : (s.setCmd c).p = s.p := rfl
@[simp] theorem State.setCmd_pxpos (c : BitVec 2) (s : State) : (s.setCmd c).pxpos = s.pxpos := rfl
@[simp] theorem State.setCmd_pxlen (c : BitVec 2) (s : State) : (s.setCmd c).pxlen = s.pxlen := rfl
@[simp] theorem State.setCmd_outCh (c : BitVec 2) (s : State) : (s.setCmd c).outCh = s.outCh := rfl
@[simp] theorem State.setCmd_cmd (c : BitVec 2) (s : State) : (s.setCmd c).cmd = c := rfl
@[simp] theorem State.setCmd_phase (c : BitVec 2) (s : State) : (s.setCmd c).phase = s.phase := rfl
@[simp] theorem State.setCmd_err (c : BitVec 2) (s : State) : (s.setCmd c).err = s.err := rfl
@[simp] theorem State.setCmd_desc (c : BitVec 2) (s : State) : (s.setCmd c).desc = s.desc := rfl
@[simp] theorem State.setCmd_reqChannels (c : BitVec 2) (s : State) : (s.setCmd c).reqChannels = s.reqChannels := rfl
@[simp] theorem State.setCmd_streamSize (c : BitVec 2) (s : State) : (s.setCmd c).streamSize = s.streamSize := rfl
@[simp] theorem State.setCmd_outCap (c : BitVec 2) (s : State) : (s.setCmd c).outCap = s.outCap := rfl
@[simp] theorem State.setCmd_outLen (c : BitVec 2) (s : State) : (s.setCmd c).outLen = s.outLen := rfl
@[simp] theorem State.setCmd_stream (c : BitVec 2) (s : State) : (s.setCmd c).stream = s.stream := rfl
@[simp] theorem State.setCmd_pixels (c : BitVec 2) (s : State) : (s.setCmd c).pixels = s.pixels := rfl

/-! finish -/

@[simp] theorem State.finish_px (n : Word) (s : State) : (s.finish n).px = s.px := rfl
@[simp] theorem State.finish_run (n : Word) (s : State) : (s.finish n).run = s.run := rfl
@[simp] theorem State.finish_idx (n : Word) (s : State) : (s.finish n).idx = s.idx := rfl
@[simp] theorem State.finish_p (n : Word) (s : State) : (s.finish n).p = s.p := rfl
@[simp] theorem State.finish_pxpos (n : Word) (s : State) : (s.finish n).pxpos = s.pxpos := rfl
@[simp] theorem State.finish_pxlen (n : Word) (s : State) : (s.finish n).pxlen = s.pxlen := rfl
@[simp] theorem State.finish_outCh (n : Word) (s : State) : (s.finish n).outCh = s.outCh := rfl
@[simp] theorem State.finish_cmd (n : Word) (s : State) : (s.finish n).cmd = s.cmd := rfl
@[simp] theorem State.finish_phase (n : Word) (s : State) : (s.finish n).phase = .done := rfl
@[simp] theorem State.finish_err (n : Word) (s : State) : (s.finish n).err = s.err := rfl
@[simp] theorem State.finish_desc (n : Word) (s : State) : (s.finish n).desc = s.desc := rfl
@[simp] theorem State.finish_reqChannels (n : Word) (s : State) : (s.finish n).reqChannels = s.reqChannels := rfl
@[simp] theorem State.finish_streamSize (n : Word) (s : State) : (s.finish n).streamSize = s.streamSize := rfl
@[simp] theorem State.finish_outCap (n : Word) (s : State) : (s.finish n).outCap = s.outCap := rfl
@[simp] theorem State.finish_outLen (n : Word) (s : State) : (s.finish n).outLen = n := rfl
@[simp] theorem State.finish_stream (n : Word) (s : State) : (s.finish n).stream = s.stream := rfl
@[simp] theorem State.finish_pixels (n : Word) (s : State) : (s.finish n).pixels = s.pixels := rfl

/-! raise -/

@[simp] theorem State.raise_px (e : ErrKind) (s : State) : (s.raise e).px = s.px := rfl
@[simp] theorem State.raise_run (e : ErrKind) (s : State) : (s.raise e).run = s.run := rfl
@[simp] theorem State.raise_idx (e : ErrKind) (s : State) : (s.raise e).idx = s.idx := rfl
@[simp] theorem State.raise_p (e : ErrKind) (s : State) : (s.raise e).p = s.p := rfl
@[simp] theorem State.raise_pxpos (e : ErrKind) (s : State) : (s.raise e).pxpos = s.pxpos := rfl
@[simp] theorem State.raise_pxlen (e : ErrKind) (s : State) : (s.raise e).pxlen = s.pxlen := rfl
@[simp] theorem State.raise_outCh (e : ErrKind) (s : State) : (s.raise e).outCh = s.outCh := rfl
@[simp] theorem State.raise_cmd (e : ErrKind) (s : State) : (s.raise e).cmd = s.cmd := rfl
@[simp] theorem State.raise_phase (e : ErrKind) (s : State) : (s.raise e).phase = .error := rfl
@[simp] theorem State.raise_err (e : ErrKind) (s : State) : (s.raise e).err = e := rfl
@[simp] theorem State.raise_desc (e : ErrKind) (s : State) : (s.raise e).desc = s.desc := rfl
@[simp] theorem State.raise_reqChannels (e : ErrKind) (s : State) : (s.raise e).reqChannels = s.reqChannels := rfl
@[simp] theorem State.raise_streamSize (e : ErrKind) (s : State) : (s.raise e).streamSize = s.streamSize := rfl
@[simp] theorem State.raise_outCap (e : ErrKind) (s : State) : (s.raise e).outCap = s.outCap := rfl
@[simp] theorem State.raise_outLen (e : ErrKind) (s : State) : (s.raise e).outLen = s.outLen := rfl
@[simp] theorem State.raise_stream (e : ErrKind) (s : State) : (s.raise e).stream = s.stream := rfl
@[simp] theorem State.raise_pixels (e : ErrKind) (s : State) : (s.raise e).pixels = s.pixels := rfl

/-! startWork -/

@[simp] theorem State.startWork_px (s : State) : s.startWork.px = baseline := rfl
@[simp] theorem State.startWork_run (s : State) : s.startWork.run = 0 := rfl
@[simp] theorem State.startWork_idx (s : State) : s.startWork.idx = clearTable := rfl
@[simp] theorem State.startWork_p (s : State) : s.startWork.p = 14 := rfl
@[simp] theorem State.startWork_pxpos (s : State) : s.startWork.pxpos = 0 := rfl
@[simp] theorem State.startWork_pxlen (s : State) : s.startWork.pxlen = s.pxlen := rfl
@[simp] theorem State.startWork_outCh (s : State) : s.startWork.outCh = s.outCh := rfl
@[simp] theorem State.startWork_cmd (s : State) : s.startWork.cmd = s.cmd := rfl
@[simp] theorem State.startWork_phase (s : State) : s.startWork.phase = s.phase := rfl
@[simp] theorem State.startWork_err (s : State) : s.startWork.err = .none := rfl
@[simp] theorem State.startWork_desc (s : State) : s.startWork.desc = s.desc := rfl
@[simp] theorem State.startWork_reqChannels (s : State) : s.startWork.reqChannels = s.reqChannels := rfl
@[simp] theorem State.startWork_streamSize (s : State) : s.startWork.streamSize = s.streamSize := rfl
@[simp] theorem State.startWork_outCap (s : State) : s.startWork.outCap = s.outCap := rfl
@[simp] theorem State.startWork_outLen (s : State) : s.startWork.outLen = s.outLen := rfl
@[simp] theorem State.startWork_stream (s : State) : s.startWork.stream = s.stream := rfl
@[simp] theorem State.startWork_pixels (s : State) : s.startWork.pixels = s.pixels := rfl

/-! storeIndex -/

@[simp] theorem State.storeIndex_px (s : State) : s.storeIndex.px = s.px := rfl
@[simp] theorem State.storeIndex_run (s : State) : s.storeIndex.run = s.run := rfl
@[simp] theorem State.storeIndex_idx (s : State) : s.storeIndex.idx = slotSet s.idx (hash s.px) s.px := rfl
@[simp] theorem State.storeIndex_p (s : State) : s.storeIndex.p = s.p := rfl
@[simp] theorem State.storeIndex_pxpos (s : State) : s.storeIndex.pxpos = s.pxpos := rfl
@[simp] theorem State.storeIndex_pxlen (s : State) : s.storeIndex.pxlen = s.pxlen := rfl
@[simp] theorem State.storeIndex_outCh (s : State) : s.storeIndex.outCh = s.outCh := rfl
@[simp] theorem State.storeIndex_cmd (s : State) : s.storeIndex.cmd = s.cmd := rfl
@[simp] theorem State.storeIndex_phase (s : State) : s.storeIndex.phase = s.phase := rfl
@[simp] theorem State.storeIndex_err (s : State) : s.storeIndex.err = s.err := rfl
@[simp] theorem State.storeIndex_desc (s : State) : s.storeIndex.desc = s.desc := rfl
@[simp] theorem State.storeIndex_reqChannels (s : State) : s.storeIndex.reqChannels = s.reqChannels := rfl
@[simp] theorem State.storeIndex_streamSize (s : State) : s.storeIndex.streamSize = s.streamSize := rfl
@[simp] theorem State.storeIndex_outCap (s : State) : s.storeIndex.outCap = s.outCap := rfl
@[simp] theorem State.storeIndex_outLen (s : State) : s.storeIndex.outLen = s.outLen := rfl
@[simp] theorem State.storeIndex_stream (s : State) : s.storeIndex.stream = s.stream := rfl
@[simp] theorem State.storeIndex_pixels (s : State) : s.storeIndex.pixels = s.pixels := rfl

/-! writeOut -/

@[simp] theorem State.writeOut_px (s : State) : s.writeOut.px = s.px := rfl
@[simp] theorem State.writeOut_run (s : State) : s.writeOut.run = s.run := rfl
@[simp] theorem State.writeOut_idx (s : State) : s.writeOut.idx = s.idx := rfl
@[simp] theorem State.writeOut_p (s : State) : s.writeOut.p = s.p := rfl
@[simp] theorem State.writeOut_pxpos (s : State) : s.writeOut.pxpos = s.pxpos := rfl
@[simp] theorem State.writeOut_pxlen (s : State) : s.writeOut.pxlen = s.pxlen := rfl
@[simp] theorem State.writeOut_outCh (s : State) : s.writeOut.outCh = s.outCh := rfl
@[simp] theorem State.writeOut_cmd (s : State) : s.writeOut.cmd = s.cmd := rfl
@[simp] theorem State.writeOut_phase (s : State) : s.writeOut.phase = s.phase := rfl
@[simp] theorem State.writeOut_err (s : State) : s.writeOut.err = s.err := rfl
@[simp] theorem State.writeOut_desc (s : State) : s.writeOut.desc = s.desc := rfl
@[simp] theorem State.writeOut_reqChannels (s : State) : s.writeOut.reqChannels = s.reqChannels := rfl
@[simp] theorem State.writeOut_streamSize (s : State) : s.writeOut.streamSize = s.streamSize := rfl
@[simp] theorem State.writeOut_outCap (s : State) : s.writeOut.outCap = s.outCap := rfl
@[simp] theorem State.writeOut_outLen (s : State) : s.writeOut.outLen = s.outLen := rfl
@[simp] theorem State.writeOut_stream (s : State) : s.writeOut.stream = s.stream := rfl
@[simp] theorem State.writeOut_pixels (s : State) : s.writeOut.pixels = s.pixels.writeBytes s.pxpos.toNat (outBytes s.outCh s.px) := rfl

end Sys2Proof.Machine
end

