-- ==== Sys2Proof/Laws/Ops.lean ====
section
/-!
SUPPORT. One lemma for each shared operation of Machine/Ops.lean that says what it can do; proofs cite these instead of
unfolding the operations.
-/

namespace Sys2Proof.Machine

theorem andThen_eq_next {r : Result} {f : State → Result} {t : State} :
    andThen r f = .next t ↔ ∃ s, r = .next s ∧ f s = .next t := by
  cases r <;> simp [andThen]

@[simp] theorem andThen_next (s : State) (f : State → Result) : andThen (.next s) f = f s := rfl

/-- A cursor plus a small number, when it does not wrap. -/
theorem cursor_add {v : Word} {n : Nat} (h : v.toNat + n < 4294967296) :
    (v + BitVec.ofNat 32 n).toNat = v.toNat + n := by
  rw [BitVec.toNat_add, BitVec.toNat_ofNat]
  omega

theorem advanceP_eq_next {n : Nat} {s t : State} :
    advanceP n s = .next t ↔ s.p.toNat + n < 4294967296 ∧ t = s.setP (s.p + BitVec.ofNat 32 n) := by
  unfold advanceP Config.addressSpace
  split <;> simp [*, eq_comm]

theorem advancePxpos_eq_next {n : Nat} {s t : State} :
    advancePxpos n s = .next t ↔ s.pxpos.toNat + n < 4294967296 ∧ t = s.setPxpos (s.pxpos + BitVec.ofNat 32 n) := by
  unfold advancePxpos Config.addressSpace
  split <;> simp [*, eq_comm]

/-- Termination writes `OUT_LEN` and `PHASE` only. -/
theorem endIfFull_cases (s : State) :
    (s.pxpos = s.pxlen ∧ s.endIfFull = s.finish s.pxlen) ∨ (s.pxpos ≠ s.pxlen ∧ s.endIfFull = s) := by
  unfold State.endIfFull
  split
  · exact .inl ⟨‹_›, rfl⟩
  · exact .inr ⟨‹_›, rfl⟩

/-- The tail of a slot step goes on exactly when the cursor has room, and gives one state. -/
theorem outputSlot_eq_next {s t : State} :
    outputSlot s = .next t ↔
      SlotRoom s ∧ t = (s.writeOut.setPxpos (s.pxpos + BitVec.ofNat 32 s.outCh.count)).endIfFull := by
  unfold outputSlot SlotRoom
  rw [andThen_eq_next]
  constructor
  · rintro ⟨u, hu, ht⟩
    obtain ⟨h, rfl⟩ := advancePxpos_eq_next.1 hu
    exact ⟨h, (Host.Outcome.next.inj ht).symm⟩
  · rintro ⟨h, rfl⟩
    exact ⟨_, advancePxpos_eq_next.2 ⟨h, rfl⟩, rfl⟩

/-- What the tail of a slot step leaves (R122, R126) and what it does not touch. -/
theorem outputSlot_spec {s t : State} (h : outputSlot s = .next t) :
    t.px = s.px ∧ t.run = s.run ∧ t.idx = s.idx ∧ t.p = s.p ∧ t.stream = s.stream ∧ RunConstants s t ∧
      OutputWritten s.px s t ∧ SlotEnds s t ∧ SameOutside s.pxpos.toNat s.outCh.count s.pixels t.pixels ∧
      t.pxpos.toNat = s.pxpos.toNat + s.outCh.count ∧
      t.pixels = s.pixels.writeBytes s.pxpos.toNat (outBytes s.outCh s.px) := by
  obtain ⟨hroom, rfl⟩ := outputSlot_eq_next.1 h
  have hpos := cursor_add hroom
  have hout : ∀ x : Word, OutputWritten s.px s (s.writeOut.setPxpos x) ↔
      x.toNat = s.pxpos.toNat + s.outCh.count := by
    intro x
    have hb := Memory.readBytes_writeBytes s.pixels s.pxpos.toNat (outBytes s.outCh s.px)
    rw [outBytes_length] at hb
    unfold OutputWritten
    cases hc : s.outCh <;> rw [hc] at hb <;>
      simp only [State.setPxpos_pixels, State.writeOut_pixels, State.setPxpos_pxpos, hc, OutChannels.count] at hb ⊢ <;>
      rw [hb] <;> simp [outBytes]
  have hsame : SameOutside s.pxpos.toNat s.outCh.count s.pixels s.writeOut.pixels := by
    intro x hx
    exact Memory.read_writeBytes_outside _ _ (by rw [outBytes_length]; exact hx)
  rcases endIfFull_cases (s.writeOut.setPxpos (s.pxpos + BitVec.ofNat 32 s.outCh.count)) with ⟨he, hs⟩ | ⟨he, hs⟩
  · rw [hs]
    refine ⟨rfl, rfl, rfl, rfl, rfl, ⟨rfl, rfl, rfl, rfl, rfl, rfl, rfl, rfl⟩, ?_, ?_, hsame, hpos, rfl⟩
    · exact (hout (s.pxpos + BitVec.ofNat 32 s.outCh.count)).2 hpos
    · simp only [State.setPxpos_pxpos, State.setPxpos_pxlen, State.writeOut_pxlen] at he
      simp [SlotEnds, he]
  · rw [hs]
    refine ⟨rfl, rfl, rfl, rfl, rfl, ⟨rfl, rfl, rfl, rfl, rfl, rfl, rfl, rfl⟩, (hout _).2 hpos, ?_, hsame, hpos, rfl⟩
    simp only [State.setPxpos_pxpos, State.setPxpos_pxlen, State.writeOut_pxlen] at he
    simp [SlotEnds, he]

/-- The tail of a slot step completes whenever the cursor has room. -/
theorem outputSlot_completes {s : State} (h : SlotRoom s) : ∃ t, outputSlot s = .next t :=
  ⟨_, outputSlot_eq_next.2 ⟨h, rfl⟩⟩

/-- The index update (R121). -/
theorem storeIndex_stored (s : State) : IndexStored s.px s s.storeIndex := by
  intro k
  rw [State.storeIndex_idx, slotGet_slotSet]

/-- What a fetching slot step with an index store leaves and does not touch, for an op effect `f` that writes `PX` and
`RUN` only (R112, R121, R122, R126). -/
theorem opSlot_spec {n : Nat} {f : State → State} {s t : State} (q : Pixel) (r : BitVec 6)
    (hf : ∀ u : State, u.px = s.px → u.run = s.run → u.idx = s.idx → f u = (u.setPx q).setRun r)
    (h : opSlot n true f s = .next t) :
    OpSlotDone n q r s t ∧ t.stream = s.stream ∧ RunConstants s t ∧
      SameOutside s.pxpos.toNat s.outCh.count s.pixels t.pixels ∧
      t.pxpos.toNat = s.pxpos.toNat + s.outCh.count ∧
      t.pixels = s.pixels.writeBytes s.pxpos.toNat (outBytes s.outCh q) := by
  unfold opSlot at h
  obtain ⟨u, hu, ht⟩ := andThen_eq_next.1 h
  obtain ⟨hp, rfl⟩ := advanceP_eq_next.1 hu
  rw [if_pos rfl, hf (s.setP (s.p + BitVec.ofNat 32 n)) rfl rfl rfl] at ht
  obtain ⟨h1, h2, h3, h4, h5, h6, h7, h8, h9, h10, h11⟩ := outputSlot_spec ht
  refine ⟨⟨h1, h2, ?_, ?_, h7, h8⟩, h5, h6, h9, h10, h11⟩
  · rw [h4]; exact cursor_add hp
  · intro k
    rw [h3]
    exact storeIndex_stored (((s.setP (s.p + BitVec.ofNat 32 n)).setPx q).setRun r) k

/-- A fetching slot step completes whenever both cursors have room. -/
theorem opSlot_completes {n : Nat} {b : Bool} {f : State → State} {s : State}
    (hf : ∀ u : State, (f u).pxpos = u.pxpos ∧ (f u).outCh = u.outCh) (h : OpRoom n s) :
    ∃ t, opSlot n b f s = .next t := by
  unfold opSlot
  rw [advanceP_eq_next.2 ⟨h.1, rfl⟩, andThen_next]
  have hr : SlotRoom (f (s.setP (s.p + BitVec.ofNat 32 n))) := by
    unfold SlotRoom
    rw [(hf _).1, (hf _).2]
    exact h.2
  cases b
  · exact outputSlot_completes hr
  · exact outputSlot_completes (s := (f (s.setP (s.p + BitVec.ofNat 32 n))).storeIndex) hr

/-- A fetching slot step goes on only when both cursors have room. -/
theorem opSlot_room {n : Nat} {b : Bool} {f : State → State} {s t : State}
    (hf : ∀ u : State, (f u).pxpos = u.pxpos ∧ (f u).outCh = u.outCh) (h : opSlot n b f s = .next t) : OpRoom n s := by
  unfold opSlot at h
  obtain ⟨u, hu, ht⟩ := andThen_eq_next.1 h
  obtain ⟨hp, rfl⟩ := advanceP_eq_next.1 hu
  refine ⟨hp, ?_⟩
  have hr : SlotRoom (f (s.setP (s.p + BitVec.ofNat 32 n))) := by
    cases b
    · exact (outputSlot_eq_next.1 ht).1
    · exact (outputSlot_eq_next.1 ht).1
  unfold SlotRoom at hr ⊢
  rwa [(hf _).1, (hf _).2] at hr

/-- Emission goes on exactly when `P` has room, and gives one state (R11). -/
theorem emitBytes_eq_next {bs : List Byte} {s t : State} :
    emitBytes bs s = .next t ↔ s.p.toNat + bs.length < 4294967296 ∧
      t = (s.setStream (s.stream.writeBytes s.p.toNat bs)).setP (s.p + BitVec.ofNat 32 bs.length) := by
  unfold emitBytes
  rw [advanceP_eq_next]
  simp

end Sys2Proof.Machine
end

