-- ==== Sys2Proof/Laws/Commands.lean ====
section
/-!
SUPPORT. What a START step can do, said once: report an error, or begin a run.
-/

namespace Sys2Proof.Machine

/-- A START_DECODE step that goes on raises an error or begins a decode run (R162). -/
theorem startDecode_cases {s t : State} (h : startDecode s = .next t) :
    (∃ e, e ≠ ErrKind.none ∧ t = s.raise e) ∨
    (∃ d, reqChannelsOk s.reqChannels = true ∧ 22 ≤ s.streamSize.toNat ∧ s.stream.holdsExactly s.streamSize.toNat = true ∧
      readHeader s.stream = some (magicWord, d) ∧ validDesc d = true ∧
      d.pixelCount * (outChannels s.reqChannels d.channels).count ≤ s.outCap.toNat ∧ t = beginDecode d s) := by
  unfold startDecode at h
  split at h
  · exact .inl ⟨_, by decide, (Host.Outcome.next.inj h).symm⟩
  · split at h
    · exact .inl ⟨_, by decide, (Host.Outcome.next.inj h).symm⟩
    · split at h
      · cases h
      · split at h
        · rename_i h1 h2 h3 _ magic d hr
          cases h
          unfold checkHeader
          split
          · exact .inl ⟨_, by decide, rfl⟩
          · rename_i hm
            rw [not_or, not_not] at hm
            split
            · exact .inl ⟨_, by decide, rfl⟩
            · exact .inr ⟨d, by simpa using h1, by omega, by simpa using h3, hm.1 ▸ hr, by simpa using hm.2, by omega, rfl⟩
        · cases h

/-- A START_ENCODE step that goes on raises an error or begins an encode run (R164). -/
theorem startEncode_cases {s t : State} (h : startEncode s = .next t) :
    (∃ e, e ≠ ErrKind.none ∧ t = s.raise e) ∨
    (validDesc s.desc = true ∧ s.desc.encodeNeed ≤ s.outCap.toNat ∧
      s.pixels.holdsExactly (s.desc.pixelCount * s.desc.channels.toNat) = true ∧ t = beginEncode s) := by
  unfold startEncode at h
  split at h
  · exact .inl ⟨_, by decide, (Host.Outcome.next.inj h).symm⟩
  · split at h
    · exact .inl ⟨_, by decide, (Host.Outcome.next.inj h).symm⟩
    · split at h
      · cases h
      · rename_i h1 h2 h3
        exact .inr ⟨by simpa using h1, by omega, by simpa using h3, (Host.Outcome.next.inj h).symm⟩

/-- A quiescent phase takes the pending command, or waits (R161). -/
theorem command_cases {s t : State} (h : command s = .next t) :
    (s.cmd = 1 ∧ startEncode (s.setCmd 0) = .next t) ∨ (s.cmd = 2 ∧ startDecode (s.setCmd 0) = .next t) ∨
      (s.cmd ≠ 1 ∧ s.cmd ≠ 2 ∧ t = s) := by
  unfold command at h
  split at h
  · exact .inl ⟨‹_›, h⟩
  · split at h
    · exact .inr (.inl ⟨‹_›, h⟩)
    · exact .inr (.inr ⟨‹_›, ‹_›, (Host.Outcome.next.inj h).symm⟩)

/-- The step by phase (R161). -/
theorem step_cases {s t : State} (h : step s = .next t) :
    (s.phase.busy = false ∧ command s = .next t) ∨ (s.phase = .busyEnc ∧ encStep s = .next t) ∨
      (s.phase = .busyDec ∧ decSlot s = .next t) := by
  unfold step at h
  cases hp : s.phase <;> rw [hp] at h <;> simp [Phase.busy, h]

theorem step_of_quiescent {s : State} (h : s.phase.busy = false) : step s = command s := by
  unfold step
  cases hp : s.phase <;> rw [hp] at h <;> simp [Phase.busy] at h ⊢

theorem step_of_busyEnc {s : State} (h : s.phase = .busyEnc) : step s = encStep s := by
  simp [step, h]

theorem step_of_busyDec {s : State} (h : s.phase = .busyDec) : step s = decSlot s := by
  simp [step, h]

end Sys2Proof.Machine
end

