-- ==== Sys2Proof/Laws/Decode.lean ====
section
/-!
SUPPORT. The laws of fetching: an op that stands whole at the front of a byte list is read alike with or without what
follows it, its length is the one its first byte tells (spec 30 R73), and `fetchOp` reads it.
-/

namespace Sys2Proof

/-- The dispatch on the first byte, full-byte tags first (R71). -/
theorem decode_cons (b : Byte) (tail : List Byte) :
    decode (b :: tail) =
      if b = 0xFE#8 then
        match tail with
        | r :: g :: b :: rest => .ok (.rgb r g b, rest)
        | _ => .error .rgbPayloadMissing
      else if b = 0xFF#8 then
        match tail with
        | r :: g :: b :: a :: rest => .ok (.rgba r g b a, rest)
        | _ => .error .rgbaPayloadMissing
      else decodeShort b tail := rfl

/-- Every op is read from at least one byte, and what remains is what follows its `opLength` bytes (R73). -/
theorem decode_ok_length {bs rest : List Byte} {i : Instr} (h : decode bs = .ok (i, rest)) :
    ∃ b tail, bs = b :: tail ∧ bs.length = opLength b + rest.length := by
  cases bs with
  | nil => simp [decode] at h
  | cons b tail =>
    refine ⟨b, tail, rfl, ?_⟩
    rw [decode_cons] at h
    unfold opLength
    by_cases h1 : b = 0xFE#8
    · rw [if_pos h1] at h ⊢
      split at h
      · cases h; simp; omega
      · cases h
    · rw [if_neg h1] at h ⊢
      by_cases h2 : b = 0xFF#8
      · rw [if_pos h2] at h ⊢
        split at h
        · cases h; simp; omega
        · cases h
      · rw [if_neg h2] at h ⊢
        unfold decodeShort at h
        by_cases h3 : tagOf b = 0b00#2
        · rw [if_pos h3] at h; cases h
          rw [if_neg (by rw [h3]; decide)]; simp; omega
        · rw [if_neg h3] at h
          by_cases h4 : tagOf b = 0b01#2
          · rw [if_pos h4] at h; cases h
            rw [if_neg (by rw [h4]; decide)]; simp; omega
          · rw [if_neg h4] at h
            by_cases h5 : tagOf b = 0b10#2
            · rw [if_pos h5] at h ⊢
              split at h
              · cases h; simp; omega
              · cases h
            · rw [if_neg h5] at h ⊢; cases h; simp; omega

namespace Machine

/-- When the bytes at `P` are exactly one op, `fetchOp` gives it. -/
theorem fetchOp_of_bytes {s : State} {n : Nat} {bs : List Byte} {i : Instr}
    (hb : s.stream.readBytes s.p.toNat n = some bs) (hd : decode bs = .ok (i, [])) : fetchOp s = some i := by
  obtain ⟨b, tail, rfl, hl⟩ := decode_ok_length hd
  obtain ⟨hn, hr⟩ := Memory.readBytes_eq_some.1 hb
  have h0 : s.stream.read s.p.toNat = some b := by
    have := hr 0 (by simp only [List.length_cons] at hn; omega)
    simpa using this
  have hlen : opLength b = n := by simp only [List.length_nil] at hl; omega
  simp [fetchOp, h0, hlen, hb, hd]

/-- Where the op's bytes have all been loaded the fetch succeeds: no byte value is refused (R72). -/
theorem fetchOp_isSome {s : State} {b : Byte} {bs : List Byte} (h0 : s.stream.read s.p.toNat = some b)
    (hb : s.stream.readBytes s.p.toNat (opLength b) = some bs) : ∃ i, fetchOp s = some i ∧ decode bs = .ok (i, []) := by
  obtain ⟨hn, hr⟩ := Memory.readBytes_eq_some.1 hb
  have hpos : 0 < opLength b := by unfold opLength; split <;> [omega; split <;> [omega; split <;> omega]]
  obtain ⟨tail, rfl⟩ : ∃ tail, bs = b :: tail := by
    cases bs with
    | nil => simp at hn; omega
    | cons c tail =>
      have := hr 0 hpos
      rw [Nat.add_zero, h0] at this
      simp only [List.getElem?_cons_zero, Option.some.injEq] at this
      exact ⟨tail, by rw [this]⟩
  have key : ∃ i rest, decode (b :: tail) = .ok (i, rest) := by
    unfold opLength at hn
    rw [decode_cons]
    by_cases h1 : b = 0xFE#8
    · rw [if_pos h1] at hn ⊢
      match tail, hn with
      | [x, y, z], _ => exact ⟨_, _, rfl⟩
    · rw [if_neg h1] at hn ⊢
      by_cases h2 : b = 0xFF#8
      · rw [if_pos h2] at hn ⊢
        match tail, hn with
        | [x, y, z, w], _ => exact ⟨_, _, rfl⟩
      · rw [if_neg h2] at hn ⊢
        unfold decodeShort
        split
        · exact ⟨_, _, rfl⟩
        · split
          · exact ⟨_, _, rfl⟩
          · split
            · rename_i h5
              rw [if_pos h5] at hn
              match tail, hn with
              | [x], _ => exact ⟨_, _, rfl⟩
            · exact ⟨_, _, rfl⟩
  obtain ⟨i, rest, hd⟩ := key
  obtain ⟨b', tail', he, hl⟩ := decode_ok_length hd
  cases he
  have : rest = [] := List.length_eq_zero_iff.1 (by omega)
  subst this
  exact ⟨i, fetchOp_of_bytes hb hd, hd⟩

end Machine

end Sys2Proof
end

