-- ==== Sys2Proof/Laws/Encoder.lean ====
section
/-!
SUPPORT. What a pixel step and the padding step can do, said once.
-/

namespace Sys2Proof.Machine

/-- A pixel step that goes on: the ops are emitted at `P`, the working registers take their new values, `PXPOS` moves,
and nothing else changes (R132). -/
theorem encPixel_eq_next {s t : State} :
    encPixel s = .next t ↔ ∃ cur, fetchCur s = some cur ∧
      s.p.toNat + ((encOps cur s).flatMap encode).length < 4294967296 ∧
      s.pxpos.toNat + s.desc.channels.toNat < 4294967296 ∧
      t = { s with
        stream := s.stream.writeBytes s.p.toNat ((encOps cur s).flatMap encode),
        p := s.p + BitVec.ofNat 32 ((encOps cur s).flatMap encode).length,
        run := encRun cur s, idx := encIdx cur s, px := cur,
        pxpos := s.pxpos + BitVec.ofNat 32 s.desc.channels.toNat } := by
  unfold encPixel
  cases hc : fetchCur s with
  | none => simp
  | some cur =>
    simp only [Option.some.injEq, exists_eq_left']
    rw [andThen_eq_next]
    constructor
    · rintro ⟨u, hu, ht⟩
      obtain ⟨hp, rfl⟩ := emitBytes_eq_next.1 hu
      obtain ⟨hx, rfl⟩ := advancePxpos_eq_next.1 ht
      exact ⟨hp, hx, rfl⟩
    · rintro ⟨hp, hx, rfl⟩
      exact ⟨_, emitBytes_eq_next.2 ⟨hp, rfl⟩, advancePxpos_eq_next.2 ⟨hx, rfl⟩⟩

/-- The padding step that goes on (R147). -/
theorem encPad_eq_next {s t : State} :
    encPad s = .next t ↔ s.p.toNat + 8 < 4294967296 ∧
      t = { s with
        stream := s.stream.writeBytes s.p.toNat padBytes, p := s.p + BitVec.ofNat 32 8,
        outLen := s.p + BitVec.ofNat 32 8, phase := .done } := by
  unfold encPad
  rw [andThen_eq_next]
  constructor
  · rintro ⟨u, hu, ht⟩
    obtain ⟨hp, rfl⟩ := emitBytes_eq_next.1 hu
    exact ⟨hp, (Host.Outcome.next.inj ht).symm⟩
  · rintro ⟨hp, rfl⟩
    exact ⟨_, emitBytes_eq_next.2 ⟨hp, rfl⟩, rfl⟩

/-- The encoder's step is the pixel step before the end of the input and the padding step at it (R161). -/
theorem encStep_cases {s t : State} (h : encStep s = .next t) :
    (s.pxpos.toNat < s.pxlen.toNat ∧ encPixel s = .next t) ∨ (s.pxpos = s.pxlen ∧ encPad s = .next t) := by
  unfold encStep at h
  split at h
  · exact .inl ⟨‹_›, h⟩
  · split at h
    · exact .inr ⟨‹_›, h⟩
    · cases h

/-- The fetch of `CUR` keeps alpha when there are not four channels (R133). -/
theorem fetchCur_alpha {s : State} {cur : Pixel} (h : fetchCur s = some cur) (hc : s.desc.channels ≠ 4) :
    cur.a = s.px.a := by
  unfold fetchCur at h
  split at h
  · rw [if_neg hc] at h
    cases h
    rfl
  · cases h

/-- Every op the multiplexer can choose has one to five bytes. -/
theorem muxOp_length (px slot cur : Pixel) :
    1 ≤ (encode (muxOp px slot cur)).length ∧ (encode (muxOp px slot cur)).length ≤ 5 := by
  unfold muxOp deltaOp diffOp lumaOp
  repeat' split
  all_goals simp [encode]

/-- The number of bytes a pixel step emits. -/
theorem encOps_length (s : State) (cur : Pixel) :
    ((encOps cur s).flatMap encode).length =
      if pixEq cur s.px then (if flushNow s then 1 else 0)
      else (if s.run = 0 then 0 else 1) + (encode (muxOp s.px (slotGet s.idx (hash cur)) cur)).length := by
  unfold encOps
  split
  · split <;> simp [runOp, encode]
  · split <;> simp [runOp, encode]
    omega

end Sys2Proof.Machine
end

