-- ==== Sys2Proof/Laws/Header.lean ====
section
/-!
SUPPORT. Big-endian words and the header codec: one lemma each that says what the operation leaves.
-/

namespace Sys2Proof.Machine

@[simp] theorem wordBytes_length (v : Word) : (wordBytes v).length = 4 := rfl

/-- The four bytes put together again, high byte first (R80, R81). -/
theorem wordBytes_join (v : Word) :
    (v.extractLsb' 24 8 ++ v.extractLsb' 16 8 ++ v.extractLsb' 8 8 ++ v.extractLsb' 0 8 : Word) = v := by
  apply BitVec.eq_of_getLsbD_eq
  intro i hi
  simp only [BitVec.getLsbD_append, BitVec.getLsbD_extractLsb']
  by_cases h1 : i < 8
  · simp [h1]
  · by_cases h2 : i - 8 < 8
    · simp [h1, h2, show 8 + (i - 8) = i by omega]
    · by_cases h3 : i - 8 - 8 < 8
      · simp [h1, h2, h3, show 16 + (i - 8 - 8) = i by omega]
      · simp [h1, h2, h3, show i - 8 - 8 - 8 < 8 by omega, show 24 + (i - 8 - 8 - 8) = i by omega]

/-- `read32` where a word's four bytes stand (R81). -/
theorem read32_of_bytes {m : Memory} {a : Nat} {v : Word} (h : m.readBytes a 4 = some (wordBytes v)) :
    read32 m a = some (v, a + 4) := by
  unfold read32
  rw [h]
  unfold wordBytes
  simp only [wordBytes_join]

/-- The fourteen header bytes (R100). -/
def headerBytes (d : Desc) : List Byte :=
  wordBytes magicWord ++ wordBytes d.width ++ wordBytes d.height ++ [d.channels, d.colorspace]

/-- `write_header` is one write of the fourteen header bytes at address 0 (R100). -/
theorem writeHeader_eq (d : Desc) (m : Memory) : writeHeader d m = m.writeBytes 0 (headerBytes d) := rfl

/-- What `write_header` leaves at addresses 0 to 13. -/
theorem writeHeader_readBytes (d : Desc) (m : Memory) : (writeHeader d m).readBytes 0 14 = some (headerBytes d) := by
  rw [writeHeader_eq]
  exact Memory.readBytes_writeBytes m 0 (headerBytes d)

end Sys2Proof.Machine
end

