-- ==== Sys2Proof/Laws/HostPort.lean ====
section
/-!
SUPPORT. What a host write can do, said once.
-/

namespace Sys2Proof.Machine

/-- The host may move exactly when the block is not busy and no command waits (R54, R168). -/
theorem hostMayMove_iff (s : State) : hostMayMove s = true ↔ s.phase.busy = false ∧ s.cmd = 0 := by
  simp [hostMayMove, phaseQuiescent]

theorem hostMayMove_false_iff (s : State) : hostMayMove s = false ↔ s.phase.busy = true ∨ s.cmd ≠ 0 := by
  rw [← Bool.not_eq_true, hostMayMove_iff, not_and_or, Bool.not_eq_false]

/-- A write of `CMD` changes nothing, or it makes a 1 or 2 the pending command of a block that waits for one (R166). -/
theorem writeCmd_cases (v : BitVec 2) (s : State) :
    writeCmd v s = s ∨ (hostMayMove s = true ∧ (v = 1 ∨ v = 2) ∧ writeCmd v s = s.setCmd v) := by
  unfold writeCmd
  split
  · rename_i h
    rw [Bool.and_eq_true, Bool.or_eq_true, decide_eq_true_eq, decide_eq_true_eq] at h
    exact .inr ⟨h.1, h.2, rfl⟩
  · exact .inl rfl

/-- A host write that is answered is a write of `CMD`, or an admitted write of a register, a byte or a space. -/
theorem hostWrite_cases {w : HostWrite} {s t : State} (h : hostWrite w s = .next t) :
    (∃ v, w = .cmd v ∧ t = writeCmd v s) ∨ (hostMayMove s = true ∧ t = applyWrite w s) := by
  cases w with
  | cmd v => exact .inl ⟨v, rfl, (Host.Outcome.next.inj h).symm⟩
  | _ =>
    right
    simp only [hostWrite] at h
    split at h
    · exact ⟨‹_›, (Host.Outcome.next.inj h).symm⟩
    · cases h

end Sys2Proof.Machine
end

