-- ==== Sys2Proof/Laws/PerInstr.lean ====
section
/-!
SUPPORT. The family EncodedLength of statements about every instruction as syntax: the encoding of a well-formed op is
as long as its own first byte tells the decoder (spec 30 R72, R73).
-/

namespace Sys2Proof.Laws.EncodedLength

/-- The first byte of the op's encoding tells the encoding's length (R73). -/
def Statement (i : Instr) : Prop :=
  i.wellFormed = true → ∃ b tail, encode i = b :: tail ∧ (encode i).length = opLength b

theorem rgb (r g b : Byte) : Statement (.rgb r g b) := fun _ => ⟨_, _, rfl, rfl⟩

theorem rgba (r g b a : Byte) : Statement (.rgba r g b a) := fun _ => ⟨_, _, rfl, rfl⟩

theorem index (x : BitVec 6) : Statement (.index x) :=
  fun _ => ⟨_, _, rfl, by show 1 = _; revert x; decide⟩

theorem diff (rr gg bb : BitVec 2) : Statement (.diff rr gg bb) :=
  fun _ => ⟨_, _, rfl, by show 1 = _; revert rr gg bb; decide⟩

theorem luma (g : BitVec 6) (r b : BitVec 4) : Statement (.luma g r b) :=
  fun _ => ⟨_, _, rfl, by show 2 = _; clear ‹Instr.wellFormed _ = true›; revert g; decide⟩

theorem run (x : BitVec 6) : Statement (.run x) := by
  intro h
  refine ⟨_, _, rfl, ?_⟩
  show 1 = _
  revert x
  decide

end Sys2Proof.Laws.EncodedLength
end

