-- ==== Sys2Proof/Laws/Slot.lean ====
section
/-!
SUPPORT. What an op's execution and a decoder slot can do, said once: every op is a fetching slot step that leaves some
`PX` and `RUN`; a slot is a run-repeat slot, a fetching slot or an exhausted-stream slot.
-/

namespace Sys2Proof.Machine

/-- The value `PX` takes when the op is executed (R115 to R120). -/
def opPixel (i : Instr) (s : State) : Pixel :=
  match i with
  | .rgb r g b => ⟨r, g, b, s.px.a⟩
  | .rgba r g b a => ⟨r, g, b, a⟩
  | .index x => slotGet s.idx x
  | .diff rr gg bb => movePixel s.px (diffStep rr) (diffStep gg) (diffStep bb)
  | .luma g r b => movePixel s.px (lumaSide (lumaGreen g) r) (lumaGreen g) (lumaSide (lumaGreen g) b)
  | .run _ => s.px

/-- The value `RUN` takes when the op is executed (R120). -/
def opRun (i : Instr) (s : State) : BitVec 6 :=
  match i with
  | .rgb _ _ _ => s.run
  | .rgba _ _ _ _ => s.run
  | .index _ => s.run
  | .diff _ _ _ => s.run
  | .luma _ _ _ => s.run
  | .run x => x

/-- Every op is one shape of slot step (R112, R121). -/
theorem exec_eq_opSlot (i : Instr) (s : State) :
    ∃ f : State → State, exec i s = opSlot (encode i).length true f s ∧
      (∀ u : State, (f u).pxpos = u.pxpos ∧ (f u).outCh = u.outCh) ∧
      ∀ u : State, u.px = s.px → u.run = s.run → u.idx = s.idx → f u = (u.setPx (opPixel i s)).setRun (opRun i s) := by
  cases i with
  | rgb r g b =>
    exact ⟨fun t => t.setPx ⟨r, g, b, t.px.a⟩, rfl, fun _ => ⟨rfl, rfl⟩, fun u h1 h2 _ => by
      simp [State.setPx, State.setRun, opPixel, opRun, h1, ← h2]⟩
  | rgba r g b a =>
    exact ⟨fun t => t.setPx ⟨r, g, b, a⟩, rfl, fun _ => ⟨rfl, rfl⟩, fun u _ h2 _ => by
      simp [State.setPx, State.setRun, opPixel, opRun, ← h2]⟩
  | index x =>
    exact ⟨fun t => t.setPx (slotGet t.idx x), rfl, fun _ => ⟨rfl, rfl⟩, fun u _ h2 h3 => by
      simp [State.setPx, State.setRun, opPixel, opRun, ← h2, h3]⟩
  | diff rr gg bb =>
    exact ⟨fun t => t.setPx (movePixel t.px (diffStep rr) (diffStep gg) (diffStep bb)), rfl, fun _ => ⟨rfl, rfl⟩,
      fun u h1 h2 _ => by simp [State.setPx, State.setRun, opPixel, opRun, h1, ← h2]⟩
  | luma g r b =>
    exact ⟨fun t => t.setPx (movePixel t.px (lumaSide (lumaGreen g) r) (lumaGreen g) (lumaSide (lumaGreen g) b)), rfl,
      fun _ => ⟨rfl, rfl⟩, fun u h1 h2 _ => by simp [State.setPx, State.setRun, opPixel, opRun, h1, ← h2]⟩
  | run x =>
    exact ⟨fun t => t.setRun x, rfl, fun _ => ⟨rfl, rfl⟩, fun u h1 _ _ => by
      simp [State.setPx, State.setRun, opPixel, opRun, ← h1]⟩

/-- What the execution of an op leaves and does not touch (R112, R121, R122, R126). -/
theorem exec_spec {i : Instr} {s t : State} (h : exec i s = .next t) :
    OpSlotDone (encode i).length (opPixel i s) (opRun i s) s t ∧ t.stream = s.stream ∧ RunConstants s t ∧
      SameOutside s.pxpos.toNat s.outCh.count s.pixels t.pixels ∧
      t.pxpos.toNat = s.pxpos.toNat + s.outCh.count ∧
      t.pixels = s.pixels.writeBytes s.pxpos.toNat (outBytes s.outCh (opPixel i s)) := by
  obtain ⟨f, he, -, hf⟩ := exec_eq_opSlot i s
  exact opSlot_spec _ _ hf (he ▸ h)

/-- An op completes exactly when both cursors have room. -/
theorem exec_completes_iff (i : Instr) (s : State) : (∃ t, exec i s = .next t) ↔ OpRoom (encode i).length s := by
  obtain ⟨f, he, hf, -⟩ := exec_eq_opSlot i s
  rw [he]
  exact ⟨fun ⟨_, ht⟩ => opSlot_room hf ht, opSlot_completes hf⟩

/-- The three kinds of slot (R112). -/
theorem decSlot_cases {s t : State} (h : decSlot s = .next t) :
    s.pxpos.toNat < s.pxlen.toNat ∧
      ((s.run ≠ 0 ∧ outputSlot (s.setRun (s.run - 1)) = .next t) ∨
       (s.run = 0 ∧ s.p.toNat + 8 < s.streamSize.toNat ∧ ∃ i, fetchOp s = some i ∧ exec i s = .next t) ∨
       (s.run = 0 ∧ s.streamSize.toNat ≤ s.p.toNat + 8 ∧ outputSlot s = .next t)) := by
  unfold decSlot at h
  split at h
  · refine ⟨‹_›, ?_⟩
    split at h
    · exact .inl ⟨‹_›, h⟩
    · have hr : s.run = 0 := by rename_i hr; simpa using hr
      split at h
      · rename_i hb
        split at h
        · exact .inr (.inl ⟨hr, by simpa [bodyLeft] using hb, _, ‹_›, h⟩)
        · cases h
      · rename_i hb
        exact .inr (.inr ⟨hr, by simpa [bodyLeft] using hb, h⟩)
  · cases h

/-- What any slot leaves and does not touch, whichever kind it is. -/
theorem decSlot_spec {s t : State} (h : decSlot s = .next t) :
    s.pxpos.toNat < s.pxlen.toNat ∧ t.stream = s.stream ∧ RunConstants s t ∧ SlotEnds s t ∧
      t.pxpos.toNat = s.pxpos.toNat + s.outCh.count ∧
      t.pixels = s.pixels.writeBytes s.pxpos.toNat (outBytes s.outCh t.px) ∧
      (t.idx = s.idx ∨ ∃ q, IndexStored q s t) ∧ s.pxpos.toNat + s.outCh.count < 4294967296 := by
  obtain ⟨hlt, h | ⟨-, -, i, -, h⟩ | h⟩ := decSlot_cases h
  · obtain ⟨a1, -, a3, -, a5, a6, -, a8, -, a10, a11⟩ := outputSlot_spec h.2
    exact ⟨hlt, a5, a6, a8, a10, by rw [a1]; exact a11, .inl a3, (outputSlot_eq_next.1 h.2).1⟩
  · obtain ⟨hd, h1, h2, -, h4, h5⟩ := exec_spec h
    exact ⟨hlt, h1, h2, hd.2.2.2.2.2, h4, by rw [hd.1]; exact h5, .inr ⟨_, hd.2.2.2.1⟩,
      ((exec_completes_iff i s).1 ⟨_, h⟩).2⟩
  · obtain ⟨a1, -, a3, -, a5, a6, -, a8, -, a10, a11⟩ := outputSlot_spec h.2.2
    exact ⟨hlt, a5, a6, a8, a10, by rw [a1]; exact a11, .inl a3, (outputSlot_eq_next.1 h.2.2).1⟩

end Sys2Proof.Machine
end

