-- ==== Sys2Proof/Machine/BigStep.lean ====
section
/-!
DEFINITION. The big-step reading of a run (spec 44 R169): encode and decode as functions from a launch to a result,
derived from the steps.
-/

namespace Sys2Proof.Machine

/-- How a run from a launch ends. -/
inductive RunEnd where
  /-- `DONE`: the descriptor and the output bytes, `OUT_LEN` of them -/
  | ok (desc : Desc) (out : List Byte)
  /-- `ERROR` with its kind -/
  | err (kind : ErrKind)
  /-- the model's machine stopped, or did not end in the number of steps given -/
  | stopped
deriving DecidableEq, Repr

/-- At most `n` steps, stopping at the first state that is not busy. -/
def runBusy : Nat → State → Option State
  | 0, s => if s.phase.busy then none else some s
  | n + 1, s =>
    if s.phase.busy then
      match step s with
      | .next t => runBusy n t
      | _ => none
    else some s

/-- The START step and then the run; a run of `c` pixels takes `c` steps, one more when it encodes (R161, R206). -/
def runCommand (s : State) : Option State :=
  match step s with
  | .next t => runBusy (t.desc.pixelCount + 1) t
  | _ => none

/-- The result of a run that has ended, with the bytes taken from its output space. -/
def runEnd (out : State → Memory) (o : Option State) : RunEnd :=
  match o with
  | none => .stopped
  | some t =>
    match t.phase with
    | .done =>
      match (out t).readBytes 0 t.outLen.toNat with
      | some bs => .ok t.desc bs
      | none => .stopped
    | _ => .err t.err

/-- `decode(stream, req_channels, out_cap)` (R169); the input space holds exactly the stream (R51). A list of 2^32 or
more bytes is no launch, because no `STREAM_SIZE` states its length; the spec does not speak of it and the model answers
`stopped`. Mark: DESIGN CHOICE (log 21); safe. -/
def decodeRun (stream : List Byte) (req : Byte) (cap : Word) : RunEnd :=
  if stream.length < Config.addressSpace then
    runEnd State.pixels (runCommand { State.reset with
      stream := Memory.writeBytes [] 0 stream, streamSize := BitVec.ofNat 32 stream.length,
      reqChannels := req, outCap := cap, cmd := 2 })
  else .stopped

/-- `encode(desc, pixels, out_cap)` (R169); the input space holds exactly the pixels (R51), so a
launch whose checks pass with a list of another length than `width · height · channels` is refused and answered with
`stopped` (log 21). -/
def encodeRun (desc : Desc) (pixels : List Byte) (cap : Word) : RunEnd :=
  runEnd State.stream (runCommand { State.reset with
    pixels := Memory.writeBytes [] 0 pixels, desc := desc, outCap := cap, cmd := 1 })

end Sys2Proof.Machine
end

