-- ==== Sys2Proof/Tests/Slice0.lean ====
section
/-!
SUPPORT. Tests of the model against the spec's own vectors (95_test_vectors.md; the row is named in each docstring), and
for every statement with hypotheses a witness: a concrete state and operands that meet them.
-/

namespace Sys2Proof.Tests

open Sys2Proof Sys2Proof.Machine

/-! Helpers -/

/-- The outcome is a next state of which `p` holds. -/
def nextIs (r : Result) (p : State → Bool) : Bool :=
  match r with
  | .next t => p t
  | .fault _ => false
  | .refused _ => false

theorem exists_of_nextIs {r : Result} {p : State → Bool} (h : nextIs r p = true) : ∃ t, r = .next t ∧ p t = true := by
  cases r with
  | next t => exact ⟨t, rfl, h⟩
  | fault e => cases h
  | refused e => cases h

/-- The error kind a step reports, none where it does anything else. -/
def errOf (r : Result) : ErrKind :=
  match r with
  | .next t => t.err
  | .fault _ => .none
  | .refused _ => .none

/-- A decode run about to fetch the op at the front of `body`, with `PX = q`: two four-byte slots to fill, one already
filled when `pos = 4`. -/
def atOp (q : Pixel) (body : List Byte) (pos : Word := 0) : State :=
  { State.reset with
    phase := .busyDec, px := q, p := 14, streamSize := BitVec.ofNat 32 (22 + body.length),
    stream := Memory.writeBytes [] 14 body, pxpos := pos, pxlen := 8, outCh := .four }

/-- An encode run of a 2 by 1 image with four channels, with `PX = q` and the pixel `c` to come next. -/
def atPixel (q c : Pixel) : State :=
  { State.reset with
    phase := .busyEnc, px := q, desc := ⟨2, 1, 4, 0⟩, p := 14, pxlen := 8,
    pixels := Memory.writeBytes [] 0 [c.r, c.g, c.b, c.a] }

/-- The header of a 1 by 1 image with three channels, `HDR(1,1,3,0)`. -/
def smallHeader : List Byte :=
  [0x71#8, 0x6F#8, 0x69#8, 0x66#8, 0#8, 0#8, 0#8, 1#8, 0#8, 0#8, 0#8, 1#8, 3#8, 0#8]

/-- A launch of START_DECODE on the stream `bs`. -/
def launchDecode (bs : List Byte) (req : Byte := 0) (cap : Word := 100) : State :=
  { State.reset with
    stream := Memory.writeBytes [] 0 bs, streamSize := BitVec.ofNat 32 bs.length, reqChannels := req, outCap := cap,
    cmd := 2 }

/-- A launch of START_ENCODE on three black bytes. -/
def launchEncode (d : Desc) (cap : Word := 100) : State :=
  { State.reset with desc := d, pixels := Memory.writeBytes [] 0 [0#8, 0#8, 0#8], outCap := cap, cmd := 1 }

/-- The smallest image: 1 by 1, three channels, sRGB (H2). -/
def smallDesc : Desc := ⟨1, 1, 3, 0⟩

/-- The decode run of `HDR(1,1,3,0)`, `C0`, padding, at its first slot. -/
def smallDecode : State := beginDecode smallDesc (launchDecode (smallHeader ++ 0xC0#8 :: padBytes))

/-- The encode run of S1 at its first pixel. -/
def smallEncode : State := beginEncode (launchEncode smallDesc)

/-! The well-formedness check refuses -/

/-- A RUN field of 62 is the RGB tag (R67, R74). -/
theorem test_run_field_62_refused : (Instr.run 62).wellFormed = false := by decide

/-- A RUN field of 63 is the RGBA tag (R67, R74). -/
theorem test_run_field_63_refused : (Instr.run 63).wellFormed = false := by decide

/-! Decoding: words written out bit by bit from the layouts of 30_encoding.md -/

/-- R62: `11111110 rrrrrrrr gggggggg bbbbbbbb`. -/
theorem test_decode_rgb :
    decode [0b11111110#8, 0b01100100#8, 0b00000001#8, 0b10000000#8] = .ok (.rgb 100 1 128, []) := by decide

/-- R63: `11111111 rrrrrrrr gggggggg bbbbbbbb aaaaaaaa`. -/
theorem test_decode_rgba :
    decode [0b11111111#8, 0b00000001#8, 0b00000010#8, 0b00000011#8, 0b00000100#8] = .ok (.rgba 1 2 3 4, []) := by decide

/-- R64: `00xxxxxx`. -/
theorem test_decode_index : decode [0b00010001#8] = .ok (.index 17, []) := by decide

/-- R65: `01rrggbb`. -/
theorem test_decode_diff : decode [0b01110010#8] = .ok (.diff 0b11 0b00 0b10, []) := by decide

/-- R66: `10gggggg rrrrbbbb`. -/
theorem test_decode_luma : decode [0b10110100#8, 0b00001111#8] = .ok (.luma 0b110100 0b0000 0b1111, []) := by decide

/-- R67: `11xxxxxx`. -/
theorem test_decode_run : decode [0b11000010#8] = .ok (.run 2, []) := by decide

/-- R73: a missing payload or a missing first byte is the only refusal of the decoder. -/
theorem test_decode_short :
    decode [] = .error .noFirstByte ∧ decode [0xFE#8, 1#8, 2#8] = .error .rgbPayloadMissing ∧
    decode [0xFF#8, 1#8, 2#8, 3#8] = .error .rgbaPayloadMissing ∧ decode [0xBF#8] = .error .lumaByteMissing := by decide

/-! The ops as the decoder executes them (95, part 2.5) -/

/-- DV1 and DV2. -/
theorem test_step_rgb :
    nextIs (step (atOp ⟨0, 0, 0, 255⟩ [0xFE#8, 0x64#8, 0x64#8, 0x64#8]))
      (fun t => decide (t.px = ⟨100, 100, 100, 255⟩ ∧ t.p = 18 ∧ slotGet t.idx 17 = ⟨100, 100, 100, 255⟩)) = true ∧
    nextIs (step (atOp ⟨9, 9, 9, 7⟩ [0xFE#8, 0#8, 0#8, 0#8]))
      (fun t => decide (t.px = ⟨0, 0, 0, 7⟩ ∧ slotGet t.idx 13 = ⟨0, 0, 0, 7⟩)) = true := by decide

/-- DV3 and DV4. -/
theorem test_step_rgba :
    nextIs (step (atOp ⟨0, 0, 0, 255⟩ [0xFF#8, 0#8, 0#8, 0#8, 0x80#8]))
      (fun t => decide (t.px = ⟨0, 0, 0, 128⟩ ∧ t.p = 19 ∧ slotGet t.idx 0 = ⟨0, 0, 0, 128⟩)) = true ∧
    nextIs (step (atOp ⟨100, 100, 100, 255⟩ [0xFF#8, 1#8, 2#8, 3#8, 4#8]))
      (fun t => decide (t.px = ⟨1, 2, 3, 4⟩ ∧ slotGet t.idx 14 = ⟨1, 2, 3, 4⟩)) = true := by decide

/-- DV6, and slot 5 of P3: the pixel read is stored again in the slot it hashes to. -/
theorem test_step_index :
    nextIs (step (atOp ⟨1, 2, 3, 4⟩ [0x05#8])) (fun t => decide (t.px = ⟨0, 0, 0, 0⟩ ∧ t.p = 15)) = true ∧
    nextIs (step { atOp ⟨0, 0, 0, 128⟩ [0x05#8] with idx := slotSet clearTable 0 ⟨0, 0, 0, 128⟩ })
      (fun t => decide (slotGet t.idx 0 = ⟨0, 0, 0, 0⟩)) = true := by decide

/-- DV8, DV9 and DV12. -/
theorem test_step_diff :
    nextIs (step (atOp ⟨0, 0, 0, 255⟩ [0x40#8])) (fun t => decide (t.px = ⟨254, 254, 254, 255⟩ ∧ t.p = 15)) = true ∧
    nextIs (step (atOp ⟨255, 255, 255, 255⟩ [0x7F#8])) (fun t => decide (t.px = ⟨0, 0, 0, 255⟩)) = true ∧
    nextIs (step (atOp ⟨100, 100, 100, 255⟩ [0x72#8])) (fun t => decide (t.px = ⟨101, 98, 100, 255⟩)) = true := by decide

/-- DV14, DV17 and DV20. -/
theorem test_step_luma :
    nextIs (step (atOp ⟨101, 98, 100, 255⟩ [0xB4#8, 0x0F#8]))
      (fun t => decide (t.px = ⟨113, 118, 127, 255⟩ ∧ t.p = 16)) = true ∧
    nextIs (step (atOp ⟨250, 250, 250, 255⟩ [0xBF#8, 0xFF#8])) (fun t => decide (t.px = ⟨32, 25, 32, 255⟩)) = true ∧
    nextIs (step (atOp ⟨5, 5, 5, 255⟩ [0xA0#8, 0xFE#8])) (fun t => decide (t.px = ⟨12, 5, 11, 255⟩)) = true := by decide

/-- DV22 and DV23: the counter, the one output, and the index store after a RUN op (90 C1). -/
theorem test_step_run :
    nextIs (step (atOp ⟨3, 3, 3, 255⟩ [0xFD#8])) (fun t => decide (t.run = 61 ∧ t.pxpos = 4 ∧ t.p = 15)) = true ∧
    nextIs (step (atOp ⟨0, 0, 0, 255⟩ [0xC1#8]))
      (fun t => decide (t.run = 1 ∧ slotGet t.idx 53 = ⟨0, 0, 0, 255⟩)) = true := by decide

/-- P4: the payload of the last op is read from the padding region. -/
theorem test_payload_from_padding :
    nextIs (step { atOp ⟨0, 0, 0, 255⟩ [0xFF#8, 9#8, 8#8, 7#8, 6#8, 5#8, 4#8, 3#8, 2#8] with streamSize := 23 })
      (fun t => decide (t.px = ⟨9, 8, 7, 6⟩ ∧ t.p = 19)) = true := by decide

/-- P3, slot 1 and slot 7: a run-repeat slot and an exhausted-stream slot. -/
theorem test_slots_without_op :
    nextIs (step { atOp ⟨0, 0, 0, 255⟩ [0x35#8] with run := 1 })
      (fun t => decide (t.run = 0 ∧ t.p = 14 ∧ t.pxpos = 4 ∧ t.pixels.readBytes 0 4 = some [0, 0, 0, 255])) = true ∧
    nextIs (step (atOp ⟨0, 0, 0, 0⟩ []  4))
      (fun t => decide (t.p = 14 ∧ t.phase = .done ∧ t.outLen = 8)) = true := by decide

/-! The encoder (95, parts 2.6 and 2.7) -/

/-- E14 and E28. -/
theorem test_encode_rgb :
    encode (muxOp ⟨128, 128, 128, 255⟩ zeroPixel ⟨160, 160, 160, 255⟩) = [0xFE#8, 0xA0#8, 0xA0#8, 0xA0#8] ∧
    encode (muxOp ⟨0, 0, 0, 255⟩ zeroPixel ⟨215, 224, 231, 255⟩) = [0xFE#8, 0xD7#8, 0xE0#8, 0xE7#8] := by decide

/-- E29. -/
theorem test_encode_rgba :
    encode (muxOp ⟨0, 0, 0, 255⟩ zeroPixel ⟨0, 0, 0, 128⟩) = [0xFF#8, 0#8, 0#8, 0#8, 0x80#8] := by decide

/-- E30 and E31. -/
theorem test_encode_index :
    encode (muxOp ⟨0, 0, 0, 255⟩ zeroPixel ⟨0, 0, 0, 0⟩) = [0x00#8] ∧
    encode (muxOp ⟨110, 130, 145, 255⟩ ⟨100, 100, 100, 255⟩ ⟨100, 100, 100, 255⟩) = [0x11#8] := by decide

/-- E3 and E20. -/
theorem test_encode_diff :
    encode (muxOp ⟨128, 128, 128, 255⟩ zeroPixel ⟨126, 129, 128, 255⟩) = [0x4E#8] ∧
    encode (muxOp ⟨0, 0, 0, 255⟩ zeroPixel ⟨255, 255, 255, 255⟩) = [0x55#8] := by decide

/-- E6 and E27. -/
theorem test_encode_luma :
    encode (muxOp ⟨128, 128, 128, 255⟩ zeroPixel ⟨128, 125, 128, 255⟩) = [0x9D#8, 0xBB#8] ∧
    encode (muxOp ⟨0, 0, 0, 255⟩ zeroPixel ⟨216, 224, 231, 255⟩) = [0x80#8, 0x0F#8] := by decide

/-- The flush at 62 (S6) and the flush before the op of a new pixel (P2, pixel 2). -/
theorem test_encode_run :
    nextIs (step { atPixel ⟨7, 7, 7, 255⟩ ⟨7, 7, 7, 255⟩ with run := 61 })
      (fun t => decide (t.run = 0 ∧ t.p = 15 ∧ t.stream.read 14 = some 0xFD#8)) = true ∧
    nextIs (step { atPixel ⟨0, 0, 0, 255⟩ ⟨255, 255, 255, 255⟩ with run := 2 })
      (fun t => decide (t.run = 0 ∧ t.p = 16 ∧ t.stream.readBytes 14 2 = some [0xC1#8, 0x55#8])) = true := by decide

/-! Commands and errors (95, part 2.8) -/

/-- X1, X8, X9, X4 and X12 in the order of R177. -/
theorem test_start_decode_errors :
    errOf (step (launchDecode (smallHeader ++ [0, 0, 0, 0, 0, 0, 0]))) = .truncated ∧
    errOf (step (launchDecode (smallHeader ++ padBytes) 5)) = .invalidArgument ∧
    errOf (step (launchDecode [0, 0, 0, 0, 0, 0, 0, 0, 0, 0] 5)) = .invalidArgument ∧
    errOf (step (launchDecode (0x51#8 :: (smallHeader ++ padBytes).drop 1))) = .invalidHeader ∧
    errOf (step (launchDecode (smallHeader ++ padBytes) 0 2)) = .outOfMemory := by decide

/-- X14, X16 and X18. -/
theorem test_start_encode_errors :
    errOf (step (launchEncode ⟨0, 1, 3, 0⟩)) = .invalidArgument ∧
    errOf (step (launchEncode smallDesc 25)) = .outOfMemory ∧
    errOf (step (launchEncode ⟨0, 1, 3, 0⟩ 0)) = .invalidArgument := by decide

/-- H7, H8, H9, H12 and H13: the pixel bound is a floor division and not symmetric. -/
theorem test_descriptor_bound :
    validDesc ⟨1, 399999999, 3, 0⟩ = true ∧ validDesc ⟨1, 400000000, 3, 0⟩ = false ∧
    validDesc ⟨399999999, 1, 3, 0⟩ = false ∧ validDesc ⟨3, 133333332, 3, 0⟩ = true ∧
    validDesc ⟨3, 133333333, 3, 0⟩ = false := by decide

/-- 95, part 2.2. -/
theorem test_hash :
    Machine.hash ⟨0, 0, 0, 255⟩ = 53 ∧ Machine.hash ⟨255, 255, 255, 255⟩ = 38 ∧ Machine.hash ⟨1, 2, 3, 4⟩ = 14 ∧ Machine.hash ⟨254, 254, 254, 255⟩ = 23 := by
  decide

/-- S1: the run of a single black pixel ends with the 23 bytes of the spec. -/
theorem test_single_black_pixel :
    nextIs (Sys2Proof.core.run 3 (launchEncode smallDesc)) (fun t => decide (t.phase = .done ∧ t.outLen = 23 ∧
      t.stream.readBytes 0 23 = some (smallHeader ++ 0xC0#8 :: [0, 0, 0, 0, 0, 0, 0, 1]))) = true := by decide

/-! Witnesses: concrete states and operands that meet the hypotheses of the statements -/

theorem witness_DecodeInvertsEncode : (Instr.run 61).wellFormed = true := by decide

theorem witness_EncodeInvertsDecode : decode [0xBF#8, 0xFE#8, 0x01#8] = .ok (.luma 63 15 14, [0x01#8]) := by decide

/-- Both ends of every range of first bytes. -/
theorem witness_EveryFirstByteSelectsItsOp :
    ((0x00#8).toNat ≤ 0x3F ∧ (0x3F#8).toNat ≤ 0x3F) ∧
    (0x40 ≤ (0x40#8).toNat ∧ (0x40#8).toNat ≤ 0x7F ∧ 0x40 ≤ (0x7F#8).toNat ∧ (0x7F#8).toNat ≤ 0x7F) ∧
    (0x80 ≤ (0x80#8).toNat ∧ (0x80#8).toNat ≤ 0xBF ∧ 0x80 ≤ (0xBF#8).toNat ∧ (0xBF#8).toNat ≤ 0xBF) ∧
    (0xC0 ≤ (0xC0#8).toNat ∧ (0xC0#8).toNat ≤ 0xFD ∧ 0xC0 ≤ (0xFD#8).toNat ∧ (0xFD#8).toNat ≤ 0xFD) ∧
    (0xFE#8).toNat = 0xFE ∧ (0xFF#8).toNat = 0xFF := by decide

/-- The decoder's clauses at `3F`, `7F`, `BF`, `FD`, the encoder's at the ends of the field ranges. -/
theorem witness_FieldsFollowShiftsAndMasks :
    decode [0x3F#8] = .ok (.index 63, []) ∧ decode [0x7F#8] = .ok (.diff 3 3 3, []) ∧
    decode [0x80#8, 0xF0#8] = .ok (.luma 0 15 0, []) ∧ decode [0xFD#8] = .ok (.run 61, []) ∧
    encode (diffOp ⟨-2, -2, -2⟩) = [0x40#8] ∧
    encode (.luma (biasField 6 32 31) (biasField 4 8 (-8)) (biasField 4 8 7)) = [0xBF#8, 0x0F#8] ∧
    (1 ≤ (62#6).toNat ∧ (62#6).toNat ≤ 62 ∧ encode (runOp 62) = [0xFD#8]) := by decide

theorem witness_StepRunsTheFetchedOp :
    let s := atOp ⟨0, 0, 0, 255⟩ [0xAA#8, 0x88#8]
    s.phase = .busyDec ∧ s.run = 0 ∧ s.pxpos.toNat < s.pxlen.toNat ∧ s.p.toNat + 8 < s.streamSize.toNat ∧
      s.stream.readBytes s.p.toNat 2 = some [0xAA#8, 0x88#8] ∧ decode [0xAA#8, 0x88#8] = .ok (.luma 42 8 8, []) := by decide

/-- The cursors at the highest values at which an op of `n` bytes still completes. -/
def edgeState (n : Nat) : State :=
  { State.reset with
    phase := .busyDec, p := BitVec.ofNat 32 (4294967295 - n), pxpos := 4294967292, pxlen := 4294967295, outCh := .three }

theorem edge_room (n : Nat) (h : n ≤ 5) : OpRoom n (edgeState n) := by
  refine ⟨?_, by show (4294967292#32).toNat + 3 < 4294967296; decide⟩
  show (BitVec.ofNat 32 (4294967295 - n)).toNat + n < 4294967296
  rw [BitVec.toNat_ofNat]
  omega

theorem witness_RgbOpTakesThreeChannels : OpRoom 4 (edgeState 4) := edge_room 4 (by omega)

theorem witness_RgbaOpTakesFourChannels : OpRoom 5 (edgeState 5) := edge_room 5 (by omega)

/-- With the hash clause: the zero pixel stands in slot 0, to which it hashes. -/
theorem witness_IndexOpReadsTheSlot :
    (0x3F#8).toNat ≤ 0x3F ∧ OpRoom 1 (edgeState 1) ∧ hash (slotGet (edgeState 1).idx 0) = 0 :=
  ⟨by decide, edge_room 1 (by omega), by decide⟩

theorem witness_DiffOpMovesEachChannel :
    0x40 ≤ (0x7F#8).toNat ∧ (0x7F#8).toNat ≤ 0x7F ∧ OpRoom 1 (edgeState 1) :=
  ⟨by decide, by decide, edge_room 1 (by omega)⟩

theorem witness_LumaOpMovesByGreen :
    0x80 ≤ (0xBF#8).toNat ∧ (0xBF#8).toNat ≤ 0xBF ∧ OpRoom 2 (edgeState 2) :=
  ⟨by decide, by decide, edge_room 2 (by omega)⟩

theorem witness_RunOpLoadsTheCounter :
    0xC0 ≤ (0xFD#8).toNat ∧ (0xFD#8).toNat ≤ 0xFD ∧ OpRoom 1 (edgeState 1) :=
  ⟨by decide, by decide, edge_room 1 (by omega)⟩

/-- Every op completes in a small state. -/
theorem witness_OpsTouchNothingElse :
    ∀ i ∈ [Instr.rgb 1 2 3, .rgba 1 2 3 4, .index 63, .diff 0 3 1, .luma 63 0 15, .run 61],
      nextIs (exec i (atOp ⟨0, 0, 0, 255⟩ [])) (fun _ => true) = true := by decide

theorem witness_RepeatSlotConsumesNoOp :
    let s : State := { atOp ⟨1, 2, 3, 4⟩ [] 4 with run := 61 }
    s.phase = .busyDec ∧ s.run ≠ 0 ∧ s.pxpos.toNat < s.pxlen.toNat ∧ SlotRoom s := by
  refine ⟨by decide, by decide, by decide, ?_⟩
  unfold SlotRoom
  decide

theorem witness_ExhaustedSlotRepeatsThePixel :
    let s := atOp ⟨1, 2, 3, 4⟩ [] 4
    s.phase = .busyDec ∧ s.run = 0 ∧ s.streamSize.toNat ≤ s.p.toNat + 8 ∧ s.pxpos.toNat < s.pxlen.toNat ∧ SlotRoom s := by
  refine ⟨by decide, by decide, by decide, by decide, ?_⟩
  unfold SlotRoom
  decide

/-- A slot of each kind completes. -/
theorem witness_EverySlotOutputsOnePixel :
    ∀ s ∈ [atOp ⟨1, 2, 3, 4⟩ [0xC0#8], atOp ⟨1, 2, 3, 4⟩ [], { atOp ⟨1, 2, 3, 4⟩ [] with run := 1 }],
      s.phase = .busyDec ∧ nextIs (step s) (fun _ => true) = true := by decide

theorem witness_PendingRunRepeatsItsPixel :
    let s : State := { atOp ⟨1, 2, 3, 4⟩ [] with run := 1 }
    s.phase = .busyDec ∧ s.run.toNat = 1 ∧ s.pxpos.toNat + 1 * s.outCh.count < s.pxlen.toNat := by decide

theorem witness_CurIsFetchedInChannelOrder :
    (let s := atPixel ⟨0, 0, 0, 255⟩ ⟨1, 2, 3, 4⟩;
      s.desc.channels = 4 ∧ s.pixels.readBytes s.pxpos.toNat 4 = some [1, 2, 3, 4]) ∧
    (let s := smallEncode;
      s.desc.channels = 3 ∧ s.pixels.readBytes s.pxpos.toNat 3 = some [0, 0, 0]) := by decide

/-- The three ends of an equal pixel: the count stays, it reaches 62, the pixel is the last. -/
theorem witness_EqualPixelAccumulatesTheRun :
    ∀ s ∈ [atPixel ⟨7, 7, 7, 255⟩ ⟨7, 7, 7, 255⟩, { atPixel ⟨7, 7, 7, 255⟩ ⟨7, 7, 7, 255⟩ with run := 61 }, smallEncode],
      s.phase = .busyEnc ∧ s.pxpos.toNat < s.pxlen.toNat ∧ fetchCur s = some s.px ∧ s.run.toNat ≤ 61 ∧
      s.p.toNat + 1 < 4294967296 ∧ s.pxpos.toNat + s.desc.channels.toNat < 4294967296 := by decide

/-- With a pending run and without one. -/
theorem witness_NewPixelFlushesThenEmits :
    ∀ s ∈ [atPixel ⟨7, 7, 7, 255⟩ ⟨1, 2, 3, 4⟩, { atPixel ⟨7, 7, 7, 255⟩ ⟨1, 2, 3, 4⟩ with run := 61 }],
      s.phase = .busyEnc ∧ s.pxpos.toNat < s.pxlen.toNat ∧ fetchCur s = some ⟨1, 2, 3, 4⟩ ∧ ⟨1, 2, 3, 4⟩ ≠ s.px ∧
      s.p.toNat + 6 < 4294967296 ∧ s.pxpos.toNat + s.desc.channels.toNat < 4294967296 := by decide

/-- A pixel for each of the five choices, with the narrowed differences the spec's table gives: E30, E29, E20, E27, E28. -/
theorem witness_MultiplexerEmitsTheTable :
    let s8 : Int → Int := fun v => (v + 128) % 256 - 128
    zeroPixel = ⟨0, 0, 0, 0⟩ ∧ (zeroPixel ≠ ⟨0, 0, 0, 128⟩ ∧ (128#8) ≠ 255#8) ∧
    (zeroPixel ≠ ⟨255, 255, 255, 255⟩ ∧ s8 (255 - 0) = -1) ∧
    (zeroPixel ≠ ⟨216, 224, 231, 255⟩ ∧ s8 (216 - 0) = -40 ∧ s8 (224 - 0) = -32 ∧ s8 (231 - 0) = -25 ∧
      s8 (-40 - -32) = -8 ∧ s8 (-25 - -32) = 7) ∧
    (zeroPixel ≠ ⟨215, 224, 231, 255⟩ ∧ s8 (215 - 0) = -41 ∧ s8 (-41 - -32) = -9) := by decide

theorem witness_PaddingStepEndsTheRun :
    let s : State := { atPixel ⟨7, 7, 7, 255⟩ ⟨7, 7, 7, 255⟩ with pxpos := 8, p := 4294967287 }
    s.phase = .busyEnc ∧ s.pxpos = s.pxlen ∧ s.p.toNat + 8 < 4294967296 := by decide

theorem witness_EmittedOpDecodesToThePixel :
    let s := edgeState 5
    s.px = zeroPixel ∧ (slotGet s.idx (hash zeroPixel) = zeroPixel) ∧ OpRoom 5 s :=
  ⟨by decide, by decide, edge_room 5 (by omega)⟩

theorem witness_EncoderEmitsNoReservedField :
    let s : State := { atPixel ⟨7, 7, 7, 255⟩ ⟨7, 7, 7, 255⟩ with run := 61 }
    RunCounterInv s ∧ Instr.run 61 ∈ encOps s.px s := by
  refine ⟨?_, by decide⟩
  unfold RunCounterInv
  decide

theorem witness_ThreeChannelRunEmitsNoRgba :
    smallEncode.desc.channels = 3 ∧ fetchCur smallEncode = some ⟨0, 0, 0, 255⟩ := by decide

theorem witness_PixelStepEmissionIsBounded :
    (smallEncode.desc.channels = 3 ∧ fetchCur smallEncode = some ⟨0, 0, 0, 255⟩) ∧
    (let s := atPixel ⟨7, 7, 7, 255⟩ ⟨1, 2, 3, 4⟩;
      s.desc.channels = 4 ∧ fetchCur s = some ⟨1, 2, 3, 4⟩) := by decide

/-- One launch for each error; the capacity one byte short, the stream one byte short. -/
theorem witness_StartDecodeReportsTheFirstFailure :
    (∀ s ∈ [launchDecode (smallHeader ++ padBytes) 5, launchDecode (smallHeader ++ [0, 0, 0, 0, 0, 0, 0]),
        launchDecode (0x51#8 :: (smallHeader ++ padBytes).drop 1), launchDecode (smallHeader ++ padBytes) 0 2],
      s.phase.busy = false ∧ s.cmd = 2) ∧
    (let s := launchDecode (smallHeader ++ padBytes) 5;
      s.reqChannels ≠ 0 ∧ s.reqChannels ≠ 3 ∧ s.reqChannels ≠ 4) ∧
    (let s := launchDecode (smallHeader ++ [0, 0, 0, 0, 0, 0, 0]);
      s.reqChannels = 0 ∧ s.streamSize.toNat = 21) ∧
    (let s := launchDecode (0x51#8 :: (smallHeader ++ padBytes).drop 1);
      s.reqChannels = 0 ∧ 22 ≤ s.streamSize.toNat ∧ s.stream.holdsExactly s.streamSize.toNat = true ∧
        readHeader s.stream = some (0x516F6966#32, smallDesc)) ∧
    (let s := launchDecode (smallHeader ++ padBytes) 0 2;
      s.reqChannels = 0 ∧ 22 ≤ s.streamSize.toNat ∧ s.stream.holdsExactly s.streamSize.toNat = true ∧
        readHeader s.stream = some (0x716F6966#32, smallDesc) ∧ validDesc smallDesc = true ∧ s.outCap.toNat < 1 * 1 * 3) := by
  decide

theorem witness_StartDecodeSetsTheInitialState :
    let s := launchDecode (smallHeader ++ padBytes) 4 4
    s.phase.busy = false ∧ s.cmd = 2 ∧ s.reqChannels = 4 ∧ 22 ≤ s.streamSize.toNat ∧
      s.stream.holdsExactly s.streamSize.toNat = true ∧ readHeader s.stream = some (0x716F6966#32, smallDesc) ∧
      validDesc smallDesc = true ∧ 1 * 1 * 4 ≤ s.outCap.toNat := by decide

theorem witness_StartEncodeReportsTheFirstFailure :
    (let s := launchEncode ⟨0, 1, 3, 0⟩;
      s.phase.busy = false ∧ s.cmd = 1 ∧ validDesc s.desc = false) ∧
    (let s := launchEncode smallDesc 25;
      s.phase.busy = false ∧ s.cmd = 1 ∧ validDesc s.desc = true ∧
        s.outCap.toNat < s.desc.width.toNat * s.desc.height.toNat * (s.desc.channels.toNat + 1) + 22) := by decide

theorem witness_StartEncodeWritesTheHeader :
    let s := launchEncode smallDesc 26
    s.phase.busy = false ∧ s.cmd = 1 ∧ validDesc s.desc = true ∧
      s.desc.width.toNat * s.desc.height.toNat * (s.desc.channels.toNat + 1) + 22 ≤ s.outCap.toNat ∧
      s.pixels.holdsExactly (s.desc.width.toNat * s.desc.height.toNat * s.desc.channels.toNat) = true := by decide

/-- A stream and an image without the last byte, and each with one byte too many. -/
theorem witness_UnloadedLaunchIsRefused :
    (let s : State := { launchDecode (smallHeader ++ padBytes) with streamSize := 23 };
      MemoryInv s ∧ s.phase.busy = false ∧ s.cmd = 2 ∧ s.reqChannels = 0 ∧ 22 ≤ s.streamSize.toNat ∧
        22 < s.streamSize.toNat ∧ s.stream.read 22 = none) ∧
    (let s : State := { launchEncode smallDesc with pixels := [(0, 0), (1, 0)] };
      MemoryInv s ∧ s.phase.busy = false ∧ s.cmd = 1 ∧ validDesc s.desc = true ∧
        s.desc.width.toNat * s.desc.height.toNat * (s.desc.channels.toNat + 1) + 22 ≤ s.outCap.toNat ∧
        2 < s.desc.width.toNat * s.desc.height.toNat * s.desc.channels.toNat ∧ s.pixels.read 2 = none) ∧
    (let s : State := { launchDecode (smallHeader ++ 0xC0#8 :: padBytes) with streamSize := 22 };
      MemoryInv s ∧ s.phase.busy = false ∧ s.cmd = 2 ∧ s.reqChannels = 0 ∧ 22 ≤ s.streamSize.toNat ∧
        s.streamSize.toNat ≤ 22 ∧ s.stream.read 22 ≠ none) ∧
    (let s : State := { launchEncode smallDesc with pixels := [(0, 0), (1, 0), (2, 0), (3, 0)] };
      MemoryInv s ∧ s.phase.busy = false ∧ s.cmd = 1 ∧ validDesc s.desc = true ∧
        s.desc.width.toNat * s.desc.height.toNat * (s.desc.channels.toNat + 1) + 22 ≤ s.outCap.toNat ∧
        s.desc.width.toNat * s.desc.height.toNat * s.desc.channels.toNat ≤ 3 ∧ s.pixels.read 3 ≠ none) := by
  unfold MemoryInv
  decide

/-- An input space with a byte too many has no meaning in the spec (R51), and a fresh buffer mends it (log 20). -/
theorem test_longer_input_refused :
    nextIs (step { launchEncode smallDesc with pixels := [(0, 0), (1, 0), (2, 0), (3, 0)] }) (fun _ => true) = false ∧
    nextIs (hostWrite .freshPixels { State.reset with pixels := [(0, 0), (3, 0)] }) (fun t => decide (t.pixels = [])) =
      true := by decide

theorem witness_QuiescentPhaseWaitsForACommand :
    ∀ p ∈ [Phase.idle, .done, .error], ∀ c ∈ [0#2, 3#2],
      let s : State := { State.reset with phase := p, cmd := c }
      s.phase.busy = false ∧ s.cmd ≠ 1 ∧ s.cmd ≠ 2 := by decide

/-- A step of each row of R161's table. -/
theorem witness_PhaseMovesAsInTheTable :
    nextIs (step (launchEncode smallDesc)) (fun t => decide (t.phase = .busyEnc)) = true ∧
    nextIs (step (launchDecode (smallHeader ++ padBytes))) (fun t => decide (t.phase = .busyDec)) = true ∧
    nextIs (step State.reset) (fun t => decide (t.phase = .idle)) = true ∧
    nextIs (step smallEncode) (fun t => decide (t.phase = .busyEnc)) = true ∧
    nextIs (step { smallEncode with pxpos := 3 }) (fun t => decide (t.phase = .done)) = true ∧
    nextIs (step smallDecode) (fun t => decide (t.phase = .done)) = true := by decide

theorem witness_BusyStepLeavesItsInputAlone :
    ∀ s ∈ [smallDecode, smallEncode], s.phase.busy = true ∧ nextIs (step s) (fun _ => true) = true := by decide

/-! The invariants hold at the first step of each small run -/

theorem smallDecode_memory : MemoryInv smallDecode := by
  unfold MemoryInv
  decide

theorem smallEncode_memory : MemoryInv smallEncode := by
  unfold MemoryInv
  decide

theorem smallDecode_inv : RunInv smallDecode := by
  refine ⟨smallDecode_memory, ?_, ?_, fun _ => ?_, fun h => ?_⟩
  · unfold RunCounterInv
    decide
  · unfold ErrInv
    decide
  · exact { valid := by decide, outCh := by decide, len := by decide, aligned := by decide, notFull := by decide,
            size := by decide, low := by decide, high := by decide, loaded := by decide, fits := by decide }
  · cases h

theorem smallEncode_inv : RunInv smallEncode := by
  refine ⟨smallEncode_memory, ?_, ?_, fun h => ?_, fun _ => ?_⟩
  · unfold RunCounterInv
    decide
  · unfold ErrInv
    decide
  · cases h
  · exact { valid := by decide, len := by decide, aligned := by decide, inside := by decide, low := by decide,
            high := by decide, flushed := by decide, alpha := by decide, loaded := by decide, fits := by decide }

theorem smallDecode_slots : SlotInv smallDecode := by
  intro k
  left
  revert k
  decide

/-- A START launch meets the invariant: it is quiescent. -/
theorem launchEncode_inv : RunInv (launchEncode smallDesc) := by
  refine ⟨by unfold MemoryInv; decide, by unfold RunCounterInv; decide, by unfold ErrInv; decide, fun h => ?_, fun h => ?_⟩
  · cases h
  · cases h

theorem witness_StepKeepsMemoryCanonical :
    MemoryInv smallEncode ∧ nextIs (step smallEncode) (fun _ => true) = true := ⟨smallEncode_memory, by decide⟩

theorem witness_StepKeepsRunBelowSixtyTwo :
    RunCounterInv smallDecode ∧ nextIs (step smallDecode) (fun _ => true) = true := ⟨smallDecode_inv.2.1, by decide⟩

theorem witness_StepKeepsErrWithPhase :
    ErrInv (launchEncode ⟨0, 1, 3, 0⟩) ∧
      nextIs (step (launchEncode ⟨0, 1, 3, 0⟩)) (fun t => decide (t.err = .invalidArgument)) = true :=
  ⟨by unfold ErrInv; decide, by decide⟩

theorem witness_StepKeepsSlotsHashed :
    SlotInv smallDecode ∧ nextIs (step smallDecode) (fun _ => true) = true := ⟨smallDecode_slots, by decide⟩

theorem witness_StepKeepsTheRunInvariant :
    (RunInv smallDecode ∧ nextIs (step smallDecode) (fun _ => true) = true) ∧
    (RunInv smallEncode ∧ nextIs (step smallEncode) (fun _ => true) = true) :=
  ⟨⟨smallDecode_inv, by decide⟩, smallEncode_inv, by decide⟩

theorem witness_BusyStepCannotFail :
    (RunInv smallDecode ∧ smallDecode.phase.busy = true) ∧ (RunInv smallEncode ∧ smallEncode.phase.busy = true) :=
  ⟨⟨smallDecode_inv, by decide⟩, smallEncode_inv, by decide⟩

theorem witness_BusyStepComesNearerTheEnd :
    RunInv smallDecode ∧ smallDecode.phase.busy = true ∧ nextIs (step smallDecode) (fun _ => true) = true :=
  ⟨smallDecode_inv, by decide, by decide⟩

/-- One pixel to go in each kind of run. -/
theorem witness_BusyRunEndsOnTime :
    (RunInv smallDecode ∧ smallDecode.phase = .busyDec ∧
      smallDecode.pxpos.toNat + 1 * smallDecode.outCh.count = smallDecode.pxlen.toNat) ∧
    (RunInv smallEncode ∧ smallEncode.phase = .busyEnc ∧
      smallEncode.pxpos.toNat + 1 * smallEncode.desc.channels.toNat = smallEncode.pxlen.toNat) :=
  ⟨⟨smallDecode_inv, by decide, by decide⟩, smallEncode_inv, by decide, by decide⟩

/-- The launch of S1, its end, and the launch of START_DECODE on what it wrote. -/
theorem witness_RoundTripLaw :
    ∃ t u : State,
      (RunInv (launchEncode smallDesc) ∧ (launchEncode smallDesc).phase.busy = false ∧ (launchEncode smallDesc).cmd = 1 ∧
        validDesc smallDesc = true ∧ 1 * 1 * (3 + 1) + 22 ≤ (launchEncode smallDesc).outCap.toNat ∧
        (launchEncode smallDesc).pixels.holdsExactly (1 * 1 * 3) = true) ∧
      Sys2Proof.core.run (1 * 1 + 2) (launchEncode smallDesc) = .next t ∧ t.phase = .done ∧
      u.phase.busy = false ∧ u.cmd = 2 ∧ u.reqChannels = 0 ∧ u.streamSize = t.outLen ∧
      u.stream.holdsExactly u.streamSize.toNat = true ∧ (∀ a, a < t.outLen.toNat → u.stream.read a = t.stream.read a) ∧
      1 * 1 * 3 ≤ u.outCap.toNat := by
  have h : nextIs (Sys2Proof.core.run (1 * 1 + 2) (launchEncode smallDesc)) (fun t => decide (t.phase = .done ∧
      t.reqChannels = 0 ∧ t.outCap = 100 ∧ t.stream.holdsExactly t.outLen.toNat = true)) = true := by decide
  obtain ⟨t, ht, hp⟩ := exists_of_nextIs h
  simp only [decide_eq_true_eq] at hp
  obtain ⟨h1, h2, h3, h4⟩ := hp
  refine ⟨t, { t with cmd := 2, streamSize := t.outLen }, ⟨launchEncode_inv, by decide⟩, ht, h1, ?_, rfl, h2, rfl, h4,
    fun _ _ => rfl, ?_⟩
  · show t.phase.busy = false
    rw [h1]
    rfl
  · show 1 * 1 * 3 ≤ t.outCap.toNat
    rw [h3]
    decide

/-- A register write and a byte load in IDLE, and a command written while the block is busy. -/
theorem witness_HostWritesKeepTheInvariants :
    (RunInv (launchEncode smallDesc) ∧ nextIs (hostWrite (.pixelByte 0xFFFFFFFF#32 7) State.reset) (fun _ => true) = true) ∧
    nextIs (hostWrite (.descWidth 1) State.reset) (fun _ => true) = true ∧
    (RunInv smallDecode ∧ SlotInv smallDecode ∧ smallDecode.phase.busy = true ∧
      nextIs (hostWrite (.cmd 1) smallDecode) (fun _ => true) = true) :=
  ⟨⟨launchEncode_inv, by decide⟩, by decide, smallDecode_inv, smallDecode_slots, by decide, by decide⟩

/-- A waiting block, a busy one, and one whose command waits. -/
theorem witness_HostWriteSetsItsRegister :
    (State.reset.phase.busy = false ∧ State.reset.cmd = 0) ∧ smallDecode.phase.busy = true ∧
    (launchEncode smallDesc).cmd ≠ 0 ∧ (∀ v, HostWrite.outCap 5 ≠ .cmd v) := by decide

/-- Every value of `CMD`, in a waiting block, a busy one, and one whose command waits. -/
theorem witness_CommandWriteStartsOrDoesNothing :
    (State.reset.phase.busy = false ∧ State.reset.cmd = 0) ∧ smallDecode.phase.busy = true ∧
    (launchEncode smallDesc).cmd ≠ 0 ∧ ∀ v : BitVec 2, (v = 1 ∨ v = 2) ∨ v = 0 ∨ v = 3 := by decide

/-- The three quiescent phases and the five error codes. -/
theorem witness_QuiescentBlockShowsItsRegisters :
    ∀ p ∈ [Phase.idle, .done, .error],
      ∀ e ∈ [ErrKind.none, .invalidArgument, .invalidHeader, .truncated, .outOfMemory],
        let s : State := { State.reset with phase := p, err := e }
        s.phase.busy = false ∧ s.cmd = 0 := by decide

theorem witness_BusyBlockShowsPhaseAndErrOnly :
    smallDecode.phase.busy = true ∧ smallEncode.phase = .busyEnc ∧ smallEncode.phase.busy = true ∧
      HostReg.outLen ≠ .cmd ∧ HostReg.outLen ≠ .phase ∧ HostReg.outLen ≠ .err := by decide

/-- B6: the highest word. -/
theorem witness_WordsAreBigEndian :
    Memory.readBytes (Memory.writeBytes [] 8 [0xFF#8, 0xFF#8, 0xFF#8, 0xFF#8]) 8 4 =
      some [0xFF#8, 0xFF#8, 0xFF#8, 0xFF#8] := by decide

/-- B5. -/
theorem witness_WordWriteReadIsIdentity :
    let m : Memory := Memory.writeBytes [] 4 [0x00#8, 0x00#8, 0x4E#8, 0x20#8]
    m.wf ∧ read32 m 4 = some (20000, 8) := by decide

/-- H1 and H14. -/
theorem witness_HeaderRoundTrip : validDesc ⟨300, 200, 3, 1⟩ = true ∧ validDesc ⟨20000, 19999, 4, 0⟩ = true := by decide

/-- H7 and H10. -/
theorem witness_ValidDescriptorBoundsTheSizes :
    validDesc ⟨1, 399999999, 3, 0⟩ = true ∧ validDesc ⟨200000000, 1, 4, 0⟩ = true := by decide

/-- The ends of the range, at which the narrowing changes the value: dR = 127, dG = -128, dB = -128. -/
theorem witness_LumaNarrowingIsInvisible :
    (-128 ≤ (127 : Int) ∧ (127 : Int) ≤ 127) ∧ (-128 ≤ (-128 : Int) ∧ (-128 : Int) ≤ 127) ∧
    toS8 (127 - -128) ≠ 127 - -128 := by decide

/-! The host's question: an op placed by `withFetchWord` is the first instruction after reset -/

theorem test_withFetchWord :
    decodeTableWord 32 0x030201FE = some (.rgb 1 2 3) ∧
    nextIs (step (State.reset.withFetchWord 32 0x030201FE)) (fun t => decide (t.px = ⟨1, 2, 3, 0⟩ ∧ t.p = 18)) = true ∧
    decodeTableWord 16 0x88AA = some (.luma 42 8 8) ∧ decodeTableWord 8 0xFD = some (.run 61) := by decide

end Sys2Proof.Tests
end

/-! # Proofs: state registers and the host port

`RUN` and `ERR` between steps (spec 10 R22, R32), and what the host reads and writes (10 R30, R31; 60 R171). -/

namespace Sys2Proof

/-! ## What decodes is well formed -/

/-- The six low bits of a RUN byte are at most 61: 62 and 63 are the full-byte tags (R74). -/
theorem lowSix_le_of_run_byte :
    ∀ b : Byte, b ≠ 0xFE#8 → b ≠ 0xFF#8 → tagOf b ≠ 0b00#2 → tagOf b ≠ 0b01#2 → tagOf b ≠ 0b10#2 →
      (lowSix b).toNat ≤ 61 := by
  decide

theorem decodeShort_wellFormed {b : Byte} {tail rest : List Byte} {i : Instr} (hrgb : b ≠ 0xFE#8) (hrgba : b ≠ 0xFF#8)
    (h : decodeShort b tail = .ok (i, rest)) : i.wellFormed = true := by
  unfold decodeShort at h
  split at h
  · cases h; rfl
  next hindex =>
    split at h
    · cases h; rfl
    next hdiff =>
      split at h
      · split at h
        · cases h; rfl
        · cases h
      next hluma =>
        cases h
        exact decide_eq_true (lowSix_le_of_run_byte b hrgb hrgba hindex hdiff hluma)

theorem decode_wellFormed {bs rest : List Byte} {i : Instr} (h : decode bs = .ok (i, rest)) : i.wellFormed = true := by
  cases bs with
  | nil => cases h
  | cons b tail =>
    rw [decode_cons] at h
    split at h
    · split at h
      · cases h; rfl
      · cases h
    next hrgb =>
      split at h
      · split at h
        · cases h; rfl
        · cases h
      next hrgba => exact decodeShort_wellFormed hrgb hrgba h

namespace Machine

theorem fetchOp_wellFormed {s : State} {i : Instr} (h : fetchOp s = some i) : i.wellFormed = true := by
  unfold fetchOp at h
  split at h
  · cases h
  · split at h
    · cases h
    · split at h
      next hd => cases h; exact decode_wellFormed hd
      · cases h

/-! ## What each kind of step does to `RUN`, `ERR` and `PHASE` -/

/-- A quiescent step waits, raises an error, or begins a run with `RUN` 0 and `ERR` 0 (R39, R161, R176). -/
theorem command_run_err_phase {s t : State} (h : command s = .next t) :
    t = s ∨ (t.run = s.run ∧ t.err ≠ .none ∧ t.phase = .error) ∨
      (t.run = 0 ∧ t.err = .none ∧ t.phase ≠ .error) := by
  rcases command_cases h with ⟨-, h⟩ | ⟨-, h⟩ | ⟨-, -, rfl⟩
  · rcases startEncode_cases h with ⟨e, he, rfl⟩ | ⟨-, -, -, rfl⟩
    · exact .inr (.inl ⟨rfl, he, rfl⟩)
    · exact .inr (.inr ⟨rfl, rfl, nofun⟩)
  · rcases startDecode_cases h with ⟨e, he, rfl⟩ | ⟨d, -, -, -, -, -, -, rfl⟩
    · exact .inr (.inl ⟨rfl, he, rfl⟩)
    · exact .inr (.inr ⟨rfl, rfl, nofun⟩)
  · exact .inl rfl

theorem encStep_run {s t : State} (h : encStep s = .next t) : t.run = s.run ∨ ∃ cur, t.run = encRun cur s := by
  rcases encStep_cases h with ⟨-, h⟩ | ⟨-, h⟩
  · obtain ⟨cur, -, -, -, rfl⟩ := encPixel_eq_next.1 h
    exact .inr ⟨cur, rfl⟩
  · obtain ⟨-, rfl⟩ := encPad_eq_next.1 h
    exact .inl rfl

theorem encStep_err_phase {s t : State} (h : encStep s = .next t) :
    t.err = s.err ∧ (t.phase = s.phase ∨ t.phase = .done) := by
  rcases encStep_cases h with ⟨-, h⟩ | ⟨-, h⟩
  · obtain ⟨cur, -, -, -, rfl⟩ := encPixel_eq_next.1 h
    exact ⟨rfl, .inl rfl⟩
  · obtain ⟨-, rfl⟩ := encPad_eq_next.1 h
    exact ⟨rfl, .inr rfl⟩

/-- A slot counts a pending run down, loads what the fetched op loads, or leaves `RUN` alone (R112). -/
theorem decSlot_run {s t : State} (h : decSlot s = .next t) :
    (s.run ≠ 0 ∧ t.run = s.run - 1) ∨ (∃ i, i.wellFormed = true ∧ t.run = opRun i s) ∨ t.run = s.run := by
  obtain ⟨-, ⟨hrun, h⟩ | ⟨-, -, i, hf, h⟩ | ⟨-, -, h⟩⟩ := decSlot_cases h
  · obtain ⟨-, hr, -⟩ := outputSlot_spec h
    exact .inl ⟨hrun, hr⟩
  · obtain ⟨⟨-, hr, -⟩, -⟩ := exec_spec h
    exact .inr (.inl ⟨i, fetchOp_wellFormed hf, hr⟩)
  · obtain ⟨-, hr, -⟩ := outputSlot_spec h
    exact .inr (.inr hr)

theorem decSlot_err_phase {s t : State} (h : decSlot s = .next t) :
    t.err = s.err ∧ (t.phase = s.phase ∨ t.phase = .done) := by
  obtain ⟨-, -, ⟨-, -, -, herr, -⟩, hends, -⟩ := decSlot_spec h
  refine ⟨herr, ?_⟩
  unfold SlotEnds at hends
  split at hends
  · exact .inr hends.1
  · exact .inl hends.1

/-! ## `RUN` stays at most 61 (R22) -/

/-- A run of 62 is flushed in the step that reaches it (R134). -/
theorem encRun_le (cur : Pixel) {s : State} (hi : RunCounterInv s) : (encRun cur s).toNat ≤ 61 := by
  unfold RunCounterInv at hi
  unfold encRun
  split
  · split
    · decide
    next hflush =>
      have hne : s.run + 1 ≠ 62 := fun he => hflush (Bool.or_eq_true_iff.2 (.inl (decide_eq_true he)))
      bv_omega
  · decide

theorem opRun_le {i : Instr} (hw : i.wellFormed = true) {s : State} (hi : RunCounterInv s) :
    (opRun i s).toNat ≤ 61 := by
  cases i with
  | run x => exact of_decide_eq_true hw
  | _ => exact hi

theorem command_keeps_runCounterInv {s t : State} (hi : RunCounterInv s) (h : command s = .next t) :
    RunCounterInv t := by
  unfold RunCounterInv at hi ⊢
  rcases command_run_err_phase h with rfl | ⟨hr, -⟩ | ⟨hr, -⟩
  · exact hi
  · exact hr ▸ hi
  · simp [hr]

theorem encStep_keeps_runCounterInv {s t : State} (hi : RunCounterInv s) (h : encStep s = .next t) :
    RunCounterInv t := by
  unfold RunCounterInv at hi ⊢
  rcases encStep_run h with hr | ⟨cur, hr⟩
  · exact hr ▸ hi
  · exact hr ▸ encRun_le cur hi

theorem decSlot_keeps_runCounterInv {s t : State} (hi : RunCounterInv s) (h : decSlot s = .next t) :
    RunCounterInv t := by
  unfold RunCounterInv at hi ⊢
  rcases decSlot_run h with ⟨hne, hr⟩ | ⟨i, hw, hr⟩ | hr
  · rw [hr]; bv_omega
  · exact hr ▸ opRun_le hw hi
  · exact hr ▸ hi

/-- Settles O36: case by case over the kinds of step; only a fetched RUN op and the encoder's counter can raise `RUN`. -/
theorem stepKeepsRunBelowSixtyTwo : Obligations.StepKeepsRunBelowSixtyTwo := by
  intro s t hi h
  rcases step_cases h with ⟨-, h⟩ | ⟨-, h⟩ | ⟨-, h⟩
  · exact command_keeps_runCounterInv hi h
  · exact encStep_keeps_runCounterInv hi h
  · exact decSlot_keeps_runCounterInv hi h

/-! ## `ERR` is 0 exactly outside `ERROR` (R32) -/

theorem command_keeps_errInv {s t : State} (hi : ErrInv s) (h : command s = .next t) : ErrInv t := by
  rcases command_run_err_phase h with rfl | ⟨-, he, hp⟩ | ⟨-, he, hp⟩
  · exact hi
  · exact iff_of_false he (not_not_intro hp)
  · exact iff_of_true he hp

/-- A busy step keeps `ERR` and goes on or ends in `DONE`, so it neither enters nor leaves `ERROR`. -/
theorem errInv_of_busy {s t : State} (hi : ErrInv s) (hs : s.phase ≠ .error)
    (h : t.err = s.err ∧ (t.phase = s.phase ∨ t.phase = .done)) : ErrInv t := by
  obtain ⟨herr, hphase⟩ := h
  refine iff_of_true (herr.trans (hi.2 hs)) ?_
  rcases hphase with hp | hp
  · exact hp ▸ hs
  · exact hp ▸ nofun

/-- Settles O37: a START step sets `ERR` together with `PHASE`; a busy step keeps `ERR` and never enters `ERROR`. -/
theorem stepKeepsErrWithPhase : Obligations.StepKeepsErrWithPhase := by
  intro s t hi h
  rcases step_cases h with ⟨-, h⟩ | ⟨hp, h⟩ | ⟨hp, h⟩
  · exact command_keeps_errInv hi h
  · exact errInv_of_busy hi (hp ▸ nofun) (encStep_err_phase h)
  · exact errInv_of_busy hi (hp ▸ nofun) (decSlot_err_phase h)

/-! ## Host reads -/

theorem hostReadReg_of_mayRead {r : HostReg} {s : State} (h : mayRead r s = true) :
    hostReadReg r s = .ok (regValue r s) :=
  if_pos h

theorem hostReadReg_refused {r : HostReg} {s : State} (h : mayRead r s = false) :
    hostReadReg r s = .error .hostMoveNotAdmitted :=
  if_neg (by rw [h]; nofun)

/-- `CMD` reads as 0 at any time (R30; log 22). -/
@[simp] theorem hostReadReg_cmd (s : State) : hostReadReg .cmd s = .ok 0 := rfl

/-- Every register but `CMD`, `PHASE` and `ERR` is read only when the host may move (R54, R168). -/
theorem hostMayMove_of_mayRead {r : HostReg} {s : State} (hcmd : r ≠ .cmd) (hphase : r ≠ .phase) (herr : r ≠ .err)
    (h : mayRead r s = true) : hostMayMove s = true := by
  cases r with
  | cmd => exact absurd rfl hcmd
  | phase => exact absurd rfl hphase
  | err => exact absurd rfl herr
  | reqChannels | streamSize | outCap => exact h
  | descWidth | descHeight | descChannels | descColorspace | outLen => exact (Bool.and_eq_true_iff.1 h).1

/-- Settles O47: a busy block admits the reads of `CMD`, `PHASE` and `ERR`, and the host may not move. -/
theorem busyBlockShowsPhaseAndErrOnly : Obligations.BusyBlockShowsPhaseAndErrOnly := by
  intro s hbusy
  refine ⟨hostReadReg_cmd s, ?_, hostReadReg_of_mayRead (by simp [mayRead, hbusy]), fun r hcmd hphase herr => ?_⟩
  · rw [hostReadReg_of_mayRead (by simp [mayRead, hbusy])]
    cases hp : s.phase with
    | busyEnc | busyDec => simp [regValue, hp, Phase.code]
    | idle | done | error => rw [hp] at hbusy; cases hbusy
  · refine hostReadReg_refused (Bool.eq_false_iff.2 fun h => ?_)
    have hstill : hostMayMove s = false := (hostMayMove_false_iff s).2 (.inl hbusy)
    exact absurd (hostMayMove_of_mayRead hcmd hphase herr h) (by rw [hstill]; nofun)

section Quiescent

variable {s : State}

/-- The registers that every quiescent phase shows. -/
theorem hostReadReg_of_hostMayMove (hm : hostMayMove s = true) {r : HostReg}
    (hr : r ∈ [HostReg.phase, .err, .reqChannels, .streamSize, .outCap]) : hostReadReg r s = .ok (regValue r s) := by
  have hcmd : s.cmd = 0 := ((hostMayMove_iff s).1 hm).2
  refine hostReadReg_of_mayRead ?_
  simp only [List.mem_cons, List.not_mem_nil, or_false] at hr
  rcases hr with rfl | rfl | rfl | rfl | rfl <;> simp [mayRead, hcmd, hm]

theorem hostReadReg_desc (hm : hostMayMove s = true) (he : s.phase ≠ .error) {r : HostReg}
    (hr : r ∈ [HostReg.descWidth, .descHeight, .descChannels, .descColorspace]) :
    hostReadReg r s = .ok (regValue r s) := by
  refine hostReadReg_of_mayRead ?_
  simp only [List.mem_cons, List.not_mem_nil, or_false] at hr
  rcases hr with rfl | rfl | rfl | rfl <;> simp [mayRead, hm, he]

theorem mayRead_outLen (hm : hostMayMove s = true) : mayRead .outLen s = decide (s.phase = .done) := by
  simp [mayRead, hm]

theorem hostReadStream_ok (hm : hostMayMove s = true) (he : s.phase ≠ .error) (a : Word) :
    hostReadStream a s = .ok (s.stream.read a.toNat) := by
  simp [hostReadStream, hm, he]

theorem hostReadPixels_ok (hm : hostMayMove s = true) (he : s.phase ≠ .error) (a : Word) :
    hostReadPixels a s = .ok (s.pixels.read a.toNat) := by
  simp [hostReadPixels, hm, he]

end Quiescent

/-- Settles O59: in a block that waits, each admitted read gives the register's value, `PHASE` and `ERR` as codes. -/
theorem quiescentBlockShowsItsRegisters : Obligations.QuiescentBlockShowsItsRegisters := by
  refine ⟨rfl, fun s hq hcmd => ?_⟩
  have hm : hostMayMove s = true := (hostMayMove_iff s).2 ⟨hq, hcmd⟩
  have hphase : hostReadReg .phase s = .ok (s.phase.code.setWidth 32) := hostReadReg_of_hostMayMove hm (by simp)
  have herr : hostReadReg .err s = .ok (s.err.code.setWidth 32) := hostReadReg_of_hostMayMove hm (by simp)
  refine ⟨hostReadReg_cmd s, ?_, ?_, ?_, ?_, ?_, ?_, ?_, ?_, hostReadReg_of_hostMayMove hm (by simp),
    hostReadReg_of_hostMayMove hm (by simp), hostReadReg_of_hostMayMove hm (by simp),
    fun he => ⟨hostReadReg_desc hm he (by simp), hostReadReg_desc hm he (by simp), hostReadReg_desc hm he (by simp),
      hostReadReg_desc hm he (by simp), hostReadStream_ok hm he, hostReadPixels_ok hm he⟩,
    fun hd => hostReadReg_of_mayRead (by simp [mayRead_outLen hm, hd]),
    fun hd => hostReadReg_refused (by simp [mayRead_outLen hm, hd])⟩
  -- what remains is a phase or an error kind and its code
  all_goals
    intro h
    simp [hphase, herr, h, Phase.code, ErrKind.code]

/-! ## Host writes -/

theorem hostWrite_of_hostMayMove {s : State} (hm : hostMayMove s = true) (w : HostWrite) :
    hostWrite w s = .next (applyWrite w s) := by
  cases w with
  | cmd v => rfl
  | _ => exact if_pos hm

theorem hostWrite_refused {s : State} (hm : hostMayMove s = false) {w : HostWrite} (hw : ∀ v, w ≠ .cmd v) :
    hostWrite w s = .refused .hostMoveNotAdmitted := by
  cases w with
  | cmd v => exact absurd rfl (hw v)
  | _ => exact if_neg (by rw [hm]; nofun)

theorem Memory.write_sameOutside (m : Memory) (a : Nat) (b : Byte) : SameOutside a 1 m (m.write a b) :=
  fun _ hx => m.read_write_of_ne b (by omega)

/-- Settles O57: an admitted write is `applyWrite`, which updates one field; any other write but of `CMD` is refused. -/
theorem hostWriteSetsItsRegister : Obligations.HostWriteSetsItsRegister := by
  refine fun s => ⟨fun hq hcmd => ?_, fun h w hw => hostWrite_refused ((hostMayMove_false_iff s).2 h) hw⟩
  have hwrite := hostWrite_of_hostMayMove ((hostMayMove_iff s).2 ⟨hq, hcmd⟩)
  exact ⟨fun v => hwrite (.descWidth v), fun v => hwrite (.descHeight v), fun v => hwrite (.descChannels v),
    fun v => hwrite (.descColorspace v), fun v => hwrite (.reqChannels v), fun v => hwrite (.streamSize v),
    fun v => hwrite (.outCap v),
    fun a v => ⟨s.stream.write a.toNat v, hwrite (.streamByte a v), s.stream.read_write_self _ v,
      s.stream.write_sameOutside _ v⟩,
    fun a v => ⟨s.pixels.write a.toNat v, hwrite (.pixelByte a v), s.pixels.read_write_self _ v,
      s.pixels.write_sameOutside _ v⟩,
    hwrite .freshStream, hwrite .freshPixels⟩

end Machine

end Sys2Proof

/-! # Proofs: the memory spaces and the invariant of a run

The canonical form of both spaces (spec 20 R40), the input space of a run (20 R41, R56), and the invariant of the whole
machine between two steps (20 R49, R50; 42 R124; 43 R133, R145, R146). -/

namespace Sys2Proof.Machine

/-! ## What a busy step never writes -/

/-- Neither the pixel step nor the padding step writes PIXELS (R41, R56). -/
theorem encStep_frame {s t : State} (h : encStep s = .next t) : RunConstants s t ∧ t.pixels = s.pixels := by
  rcases encStep_cases h with ⟨-, h⟩ | ⟨-, h⟩
  · obtain ⟨cur, -, -, -, rfl⟩ := encPixel_eq_next.1 h
    exact ⟨⟨rfl, rfl, rfl, rfl, rfl, rfl, rfl, rfl⟩, rfl⟩
  · obtain ⟨-, rfl⟩ := encPad_eq_next.1 h
    exact ⟨⟨rfl, rfl, rfl, rfl, rfl, rfl, rfl, rfl⟩, rfl⟩

/-- Settles O34: the frames of the encoder's step and of the decoder's slot. -/
theorem busyStepLeavesItsInputAlone : Obligations.BusyStepLeavesItsInputAlone := by
  intro s t hbusy h
  rcases step_cases h with ⟨hq, -⟩ | ⟨hp, h⟩ | ⟨hp, h⟩
  · rw [hq] at hbusy
    cases hbusy
  · obtain ⟨hconst, hpix⟩ := encStep_frame h
    exact ⟨hconst, fun hd => absurd (hp.symm.trans hd) nofun, fun _ => hpix⟩
  · obtain ⟨-, hstream, hconst, -⟩ := decSlot_spec h
    exact ⟨hconst, fun _ => hstream, fun he => absurd (hp.symm.trans he) nofun⟩

/-! ## The canonical form of both spaces (R40) -/

@[simp] theorem headerBytes_length (d : Desc) : (headerBytes d).length = 14 := rfl

theorem writeHeader_wf (d : Desc) {m : Memory} (hm : m.wf) : (writeHeader d m).wf := by
  rw [writeHeader_eq]
  exact Memory.writeBytes_wf hm (by simp [Config.addressSpace])

/-- A quiescent step writes at most the header, at addresses 0 to 13 of STREAM (R100, R164). -/
theorem command_memory {s t : State} (h : command s = .next t) :
    t.pixels = s.pixels ∧ (t.stream = s.stream ∨ t.stream = writeHeader s.desc s.stream) := by
  rcases command_cases h with ⟨-, h⟩ | ⟨-, h⟩ | ⟨-, -, rfl⟩
  · rcases startEncode_cases h with ⟨e, -, rfl⟩ | ⟨-, -, -, rfl⟩
    · exact ⟨rfl, .inl rfl⟩
    · exact ⟨rfl, .inr rfl⟩
  · rcases startDecode_cases h with ⟨e, -, rfl⟩ | ⟨d, -, -, -, -, -, -, rfl⟩
    · exact ⟨rfl, .inl rfl⟩
    · exact ⟨rfl, .inl rfl⟩
  · exact ⟨rfl, .inl rfl⟩

/-- An encoder's step writes one stretch of STREAM, from `P` on, that ends below 2^32 (R27). -/
theorem encStep_stream {s t : State} (h : encStep s = .next t) :
    ∃ bs, s.p.toNat + bs.length < Config.addressSpace ∧ t.stream = s.stream.writeBytes s.p.toNat bs := by
  rcases encStep_cases h with ⟨-, h⟩ | ⟨-, h⟩
  · obtain ⟨cur, -, hroom, -, rfl⟩ := encPixel_eq_next.1 h
    exact ⟨_, hroom, rfl⟩
  · obtain ⟨hroom, rfl⟩ := encPad_eq_next.1 h
    exact ⟨padBytes, hroom, rfl⟩

theorem command_keeps_memoryInv {s t : State} (hi : MemoryInv s) (h : command s = .next t) : MemoryInv t := by
  obtain ⟨hstream, hpixels⟩ := hi
  obtain ⟨hp, hs⟩ := command_memory h
  refine ⟨?_, hp ▸ hpixels⟩
  rcases hs with hs | hs
  · exact hs ▸ hstream
  · exact hs ▸ writeHeader_wf s.desc hstream

theorem encStep_keeps_memoryInv {s t : State} (hi : MemoryInv s) (h : encStep s = .next t) : MemoryInv t := by
  obtain ⟨hstream, hpixels⟩ := hi
  obtain ⟨-, hp⟩ := encStep_frame h
  obtain ⟨bs, hroom, hs⟩ := encStep_stream h
  exact ⟨hs ▸ Memory.writeBytes_wf hstream hroom.le, hp ▸ hpixels⟩

theorem decSlot_keeps_memoryInv {s t : State} (hi : MemoryInv s) (h : decSlot s = .next t) : MemoryInv t := by
  obtain ⟨hstream, hpixels⟩ := hi
  obtain ⟨-, hs, -, -, -, hp, -, hroom⟩ := decSlot_spec h
  refine ⟨hs ▸ hstream, hp ▸ Memory.writeBytes_wf hpixels ?_⟩
  rw [outBytes_length]
  exact hroom.le

/-- Settles O35: every write of a step is a stretch of bytes below 2^32, and such a write keeps the canonical form. -/
theorem stepKeepsMemoryCanonical : Obligations.StepKeepsMemoryCanonical := by
  intro s t hi h
  rcases step_cases h with ⟨-, h⟩ | ⟨-, h⟩ | ⟨-, h⟩
  · exact command_keeps_memoryInv hi h
  · exact encStep_keeps_memoryInv hi h
  · exact decSlot_keeps_memoryInv hi h

/-! ## The sizes of a valid image -/

/-- A valid image has at least one pixel and fewer than 400,000,000 of them (R104, R105). -/
theorem validDesc_pixelCount {d : Desc} (h : validDesc d = true) : 0 < d.pixelCount ∧ d.pixelCount < 400000000 := by
  obtain ⟨hw, hh, -, -, hbound⟩ := (validDesc_iff d).1 h
  have hw : 0 < d.width.toNat := by bv_omega
  have hh : 0 < d.height.toNat := by bv_omega
  refine ⟨Nat.mul_pos hw hh, ?_⟩
  calc d.pixelCount
      = d.height.toNat * d.width.toNat := Nat.mul_comm _ _
    _ < 400000000 / d.width.toNat * d.width.toNat := Nat.mul_lt_mul_of_pos_right hbound hw
    _ ≤ 400000000 := Nat.div_mul_le_self _ _

/-- A valid image has 3 or 4 channels, as numbers (R104). -/
theorem validDesc_channels {d : Desc} (h : validDesc d = true) : d.channels.toNat = 3 ∨ d.channels.toNat = 4 := by
  obtain ⟨-, -, hc, -, -⟩ := (validDesc_iff d).1 h
  exact hc.imp (fun hc => by rw [hc]; rfl) (fun hc => by rw [hc]; rfl)

theorem OutChannels.count_eq (c : OutChannels) : c.count = 3 ∨ c.count = 4 := by
  cases c
  · exact .inl rfl
  · exact .inr rfl

/-- The byte length of a valid image with 3 or 4 bytes a pixel is not 0 and fits its register (R29, R97). -/
theorem pxlen_toNat {d : Desc} {c : Nat} (h : validDesc d = true) (hc : c = 3 ∨ c = 4) :
    0 < d.pixelCount * c ∧ (BitVec.ofNat 32 (d.pixelCount * c)).toNat = d.pixelCount * c := by
  obtain ⟨hpos, hlt⟩ := validDesc_pixelCount h
  rw [BitVec.toNat_ofNat]
  rcases hc with rfl | rfl <;> omega

/-- A cursor on a pixel boundary below the length of the image has a whole pixel before it. -/
theorem next_pixel_le {x len k c : Nat} (hlen : len = k * c) (hx : x % c = 0) (hlt : x < len) : x + c ≤ len :=
  Nat.le_of_lt_add_of_dvd (Nat.add_lt_add_right hlt c) ((Nat.dvd_of_mod_eq_zero hx).add (dvd_refl c))
    (hlen ▸ Nat.dvd_mul_left c k)

/-! ## A START step establishes the invariant of its run -/

theorem beginDecode_inv {d : Desc} {s : State} (hsize : 22 ≤ s.streamSize.toNat)
    (hloaded : s.stream.holdsExactly s.streamSize.toNat = true) (hvalid : validDesc d = true)
    (hfits : d.pixelCount * (outChannels s.reqChannels d.channels).count ≤ s.outCap.toNat) :
    DecodeInv (beginDecode d s) := by
  obtain ⟨hpos, hlen⟩ := pxlen_toNat hvalid (outChannels s.reqChannels d.channels).count_eq
  exact
    { valid := hvalid, outCh := rfl, len := hlen, aligned := Nat.zero_mod _, notFull := hpos.trans_eq hlen.symm,
      size := hsize, low := le_refl 14, high := le_trans (by decide : 14 + 4 ≤ 22) hsize, loaded := hloaded,
      fits := hlen.trans_le hfits }

theorem beginEncode_inv {s : State} (hvalid : validDesc s.desc = true) (hfits : s.desc.encodeNeed ≤ s.outCap.toNat)
    (hloaded : s.pixels.holdsExactly (s.desc.pixelCount * s.desc.channels.toNat) = true) :
    EncodeInv (beginEncode s) := by
  obtain ⟨hpos, hlen⟩ := pxlen_toNat hvalid (validDesc_channels hvalid)
  exact
    { valid := hvalid, len := hlen, aligned := Nat.zero_mod _, inside := Nat.zero_le _, low := le_refl 14,
      high := Nat.le_add_right 14 _, flushed := fun h => absurd (h.trans hlen) hpos.ne, alpha := fun _ => rfl,
      loaded := (congrArg s.pixels.holdsExactly hlen).trans hloaded, fits := hfits }

/-- A quiescent step that leaves the block in a run has begun it. -/
theorem command_establishes_inv {s t : State} (hq : s.phase.busy = false) (h : command s = .next t) :
    (t.phase = .busyDec → DecodeInv t) ∧ (t.phase = .busyEnc → EncodeInv t) := by
  rcases command_cases h with ⟨-, h⟩ | ⟨-, h⟩ | ⟨-, -, rfl⟩
  · rcases startEncode_cases h with ⟨e, -, rfl⟩ | ⟨hvalid, hfits, hloaded, rfl⟩
    · exact ⟨nofun, nofun⟩
    · exact ⟨nofun, fun _ => beginEncode_inv hvalid hfits hloaded⟩
  · rcases startDecode_cases h with ⟨e, -, rfl⟩ | ⟨d, -, hsize, hloaded, -, hvalid, hfits, rfl⟩
    · exact ⟨nofun, nofun⟩
    · exact ⟨fun _ => beginDecode_inv hsize hloaded hvalid hfits, nofun⟩
  · exact ⟨fun hp => absurd (hp ▸ hq) nofun, fun hp => absurd (hp ▸ hq) nofun⟩

/-! ## A slot keeps the invariant of a decode run -/

theorem encode_length_le (i : Instr) : (encode i).length ≤ 5 := by
  cases i <;> simp [encode]

/-- `P` stands still, or moves past an op of at most five bytes that begins before the padding (R112, R124). -/
theorem decSlot_p {s t : State} (h : decSlot s = .next t) :
    t.p = s.p ∨ (s.p.toNat + 8 < s.streamSize.toNat ∧ s.p.toNat ≤ t.p.toNat ∧ t.p.toNat ≤ s.p.toNat + 5) := by
  obtain ⟨-, ⟨-, h⟩ | ⟨-, hbody, i, -, h⟩ | ⟨-, -, h⟩⟩ := decSlot_cases h
  · obtain ⟨-, -, -, hp, -⟩ := outputSlot_spec h
    exact .inl hp
  · obtain ⟨⟨-, -, hp, -⟩, -⟩ := exec_spec h
    have hlen := encode_length_le i
    exact .inr ⟨hbody, by omega, by omega⟩
  · obtain ⟨-, -, -, hp, -⟩ := outputSlot_spec h
    exact .inl hp

/-- A slot that fills the output ends the run (R126). -/
theorem pxpos_ne_of_slotEnds {s t : State} (h : SlotEnds s t) (hp : t.phase = .busyDec) : t.pxpos ≠ s.pxlen := by
  intro he
  rw [SlotEnds, if_pos he, hp] at h
  cases h.1

theorem decSlot_keeps_decodeInv {s t : State} (hi : DecodeInv s) (h : decSlot s = .next t)
    (hphase : t.phase = .busyDec) : DecodeInv t := by
  obtain ⟨-, hstream, ⟨hlen, hch, -, -, hdesc, hreq, hsize, hcap⟩, hends, hpos, -⟩ := decSlot_spec h
  have hroom := next_pixel_le hi.len hi.aligned hi.notFull
  have hne : t.pxpos.toNat ≠ s.pxlen.toNat := fun he => pxpos_ne_of_slotEnds hends hphase (BitVec.eq_of_toNat_eq he)
  have hp : 14 ≤ t.p.toNat ∧ t.p.toNat + 4 ≤ s.streamSize.toNat := by
    have hlow := hi.low
    have hhigh := hi.high
    rcases decSlot_p h with hp | ⟨hbody, hmin, hmax⟩
    · rw [hp]; exact ⟨hlow, hhigh⟩
    · omega
  obtain ⟨hlow, hhigh⟩ := hp
  exact
    { valid := hdesc ▸ hi.valid
      outCh := by rw [hch, hreq, hdesc]; exact hi.outCh
      len := by rw [hlen, hdesc, hch]; exact hi.len
      aligned := by rw [hpos, hch, Nat.add_mod_right]; exact hi.aligned
      notFull := by rw [hlen]; omega
      size := hsize ▸ hi.size
      low := hlow
      high := hsize ▸ hhigh
      loaded := by rw [hstream, hsize]; exact hi.loaded
      fits := by rw [hlen, hcap]; exact hi.fits }

/-! ## A pixel step keeps the invariant of an encode run -/

theorem deltaOp_length_le (d : Deltas) (cur : Pixel) : (encode (deltaOp d cur)).length ≤ 4 := by
  unfold deltaOp
  split
  · simp [diffOp, encode]
  · split
    · simp [lumaOp, encode]
    · simp [encode]

/-- RGBA, the one op of five bytes, is chosen only when alpha changes (R142). -/
theorem muxOp_length_of_alpha_eq {px slot cur : Pixel} (h : cur.a = px.a) :
    (encode (muxOp px slot cur)).length ≤ 4 := by
  rw [muxOp, if_pos h]
  split
  · simp [encode]
  · exact deltaOp_length_le _ _

/-- A pixel's own op has at most one byte more than the image has channels (R133, R146). -/
theorem muxOp_length_of_fetch {s : State} {cur slot : Pixel} (hvalid : validDesc s.desc = true)
    (hcur : fetchCur s = some cur) : (encode (muxOp s.px slot cur)).length ≤ s.desc.channels.toNat + 1 := by
  rcases validDesc_channels hvalid with hc | hc
  · have hne : s.desc.channels ≠ 4 := fun h4 => by rw [h4] at hc; cases hc
    exact (muxOp_length_of_alpha_eq (fetchCur_alpha hcur hne)).trans_eq (by rw [hc])
  · exact (encode_length_le _).trans_eq (by rw [hc])

/-- A pixel step emits at most `channels + 1` bytes when a pending run counts as one byte, before and after (R146). -/
theorem encOps_length_le {s : State} {cur : Pixel} (hvalid : validDesc s.desc = true) (hcur : fetchCur s = some cur) :
    ((encOps cur s).flatMap encode).length + (if encRun cur s = 0 then 0 else 1) ≤
      (if s.run = 0 then 0 else 1) + (s.desc.channels.toNat + 1) := by
  rw [encOps_length, encRun]
  by_cases heq : pixEq cur s.px = true
  · rw [if_pos heq, if_pos heq]
    split
    · rw [if_pos rfl]; omega
    · split <;> omega
  · rw [if_neg heq, if_neg heq, if_pos rfl]
    have hmux := muxOp_length_of_fetch (slot := slotGet s.idx (hash cur)) hvalid hcur
    omega

/-- The last pixel leaves no pending run and emits at least one byte (R134, R144, R145). -/
theorem encOps_of_isLast {s : State} (cur : Pixel) (hlast : isLast s = true) :
    encRun cur s = 0 ∧ 1 ≤ ((encOps cur s).flatMap encode).length := by
  have hflush : flushNow s = true := Bool.or_eq_true_iff.2 (.inr hlast)
  rw [encOps_length, encRun]
  by_cases heq : pixEq cur s.px = true
  · rw [if_pos heq, if_pos heq, if_pos hflush, if_pos hflush]
    exact ⟨rfl, le_refl 1⟩
  · rw [if_neg heq, if_neg heq]
    exact ⟨rfl, le_add_left (muxOp_length _ _ _).1⟩

theorem encPixel_keeps_encodeInv {s t : State} (hi : EncodeInv s) (hlt : s.pxpos.toNat < s.pxlen.toNat)
    (h : encPixel s = .next t) : EncodeInv t := by
  obtain ⟨cur, hcur, hproom, hxroom, rfl⟩ := encPixel_eq_next.1 h
  have hp := cursor_add hproom
  have hx := cursor_add hxroom
  have hemit := encOps_length_le hi.valid hcur
  have hpos : 0 < s.desc.channels.toNat := by rcases validDesc_channels hi.valid with hc | hc <;> omega
  have hhigh := hi.high
  have hlow := hi.low
  exact
    { valid := hi.valid
      len := hi.len
      aligned := by rw [hx, Nat.add_mod_right]; exact hi.aligned
      inside := hx.trans_le (next_pixel_le hi.len hi.aligned hlt)
      low := by rw [hp]; omega
      high := by
        dsimp only
        rw [hp, hx, Nat.add_div_right _ hpos, Nat.succ_mul]
        omega
      flushed := fun hend => by
        obtain ⟨hrun, hbyte⟩ := encOps_of_isLast cur (decide_eq_true (hx.symm.trans hend))
        exact ⟨hrun, by rw [hp]; omega⟩
      alpha := fun hc => (fetchCur_alpha hcur (by rw [hc]; decide)).trans (hi.alpha hc)
      loaded := hi.loaded
      fits := hi.fits }

theorem encStep_keeps_encodeInv {s t : State} (hi : EncodeInv s) (h : encStep s = .next t)
    (hphase : t.phase = .busyEnc) : EncodeInv t := by
  rcases encStep_cases h with ⟨hlt, h⟩ | ⟨-, h⟩
  · exact encPixel_keeps_encodeInv hi hlt h
  · obtain ⟨-, rfl⟩ := encPad_eq_next.1 h
    cases hphase

/-! ## The invariant of the whole machine -/

/-- What a run keeps, by phase: the run's own steps keep its invariant, a START step establishes it, and no run turns
into the other. -/
theorem step_keeps_phase_inv {s t : State} (hdec : s.phase = .busyDec → DecodeInv s)
    (henc : s.phase = .busyEnc → EncodeInv s) (h : step s = .next t) :
    (t.phase = .busyDec → DecodeInv t) ∧ (t.phase = .busyEnc → EncodeInv t) := by
  rcases step_cases h with ⟨hq, h⟩ | ⟨hp, h⟩ | ⟨hp, h⟩
  · exact command_establishes_inv hq h
  · obtain ⟨-, hphase⟩ := encStep_err_phase h
    rw [hp] at hphase
    refine ⟨fun ht => ?_, encStep_keeps_encodeInv (henc hp) h⟩
    rw [ht] at hphase
    rcases hphase with hphase | hphase <;> cases hphase
  · obtain ⟨-, hphase⟩ := decSlot_err_phase h
    rw [hp] at hphase
    refine ⟨decSlot_keeps_decodeInv (hdec hp) h, fun ht => ?_⟩
    rw [ht] at hphase
    rcases hphase with hphase | hphase <;> cases hphase

/-- Settles O39: the memories, `RUN` and `ERR` by their own step lemmas, the two runs by `step_keeps_phase_inv`. -/
theorem stepKeepsTheRunInvariant : Obligations.StepKeepsTheRunInvariant := by
  rintro s t ⟨hmem, hrun, herr, hdec, henc⟩ h
  exact ⟨stepKeepsMemoryCanonical s t hmem h, stepKeepsRunBelowSixtyTwo s t hrun h, stepKeepsErrWithPhase s t herr h,
    step_keeps_phase_inv hdec henc h⟩

end Sys2Proof.Machine

/-! # Proofs: the encoding

The decoder and the encoder of single ops against each other (spec 30 R61 to R67, R71, R72), against the spec's shifts
and masks (R69), and the ops the encoder emits (R74, R135, R152). -/

namespace Sys2Proof

/-! ## A byte and its fields -/

@[simp] theorem tagOf_append (t : BitVec 2) (x : BitVec 6) : tagOf (t ++ x) = t := BitVec.extractLsb'_append_eq_left

@[simp] theorem lowSix_append (t : BitVec 2) (x : BitVec 6) : lowSix (t ++ x) = x := BitVec.extractLsb'_append_eq_right

/-- No bit of a first byte is outside its tag and its six low bits (R61). -/
theorem tagOf_append_lowSix (b : Byte) : tagOf b ++ lowSix b = b :=
  (BitVec.extractLsb'_append_extractLsb'_eq_extractLsb' rfl).trans BitVec.extractLsb'_eq_self

/-- The two fields of LUMA's second byte fill it (R66). -/
theorem nibbles_join (b : Byte) : b.extractLsb' 4 4 ++ b.extractLsb' 0 4 = b :=
  (BitVec.extractLsb'_append_extractLsb'_eq_extractLsb' rfl).trans BitVec.extractLsb'_eq_self

/-- The tag and the three fields of DIFF fill its byte (R65). -/
theorem diff_fields_join (b : Byte) : tagOf b ++ b.extractLsb' 4 2 ++ b.extractLsb' 2 2 ++ b.extractLsb' 0 2 = b := by
  have hhigh : tagOf b ++ b.extractLsb' 4 2 = b.extractLsb' 4 4 :=
    BitVec.extractLsb'_append_extractLsb'_eq_extractLsb' rfl
  have hmid : b.extractLsb' 4 4 ++ b.extractLsb' 2 2 = b.extractLsb' 2 6 :=
    BitVec.extractLsb'_append_extractLsb'_eq_extractLsb' rfl
  rw [hhigh, hmid]
  exact (BitVec.extractLsb'_append_extractLsb'_eq_extractLsb' rfl).trans BitVec.extractLsb'_eq_self

/-- The three fields of a DIFF byte, read back from it (R65). -/
theorem diff_fields_append (t rr gg bb : BitVec 2) :
    tagOf (t ++ rr ++ gg ++ bb) = t ∧ (t ++ rr ++ gg ++ bb).extractLsb' 4 2 = rr ∧
      (t ++ rr ++ gg ++ bb).extractLsb' 2 2 = gg ∧ (t ++ rr ++ gg ++ bb).extractLsb' 0 2 = bb := by
  refine ⟨?_, ?_, ?_, BitVec.extractLsb'_append_eq_right⟩
  · rw [tagOf, BitVec.extractLsb'_append_eq_of_le (by decide), BitVec.extractLsb'_append_eq_of_le (by decide)]
    exact BitVec.extractLsb'_append_eq_left
  · rw [BitVec.extractLsb'_append_eq_of_le (by decide), BitVec.extractLsb'_append_eq_of_le (by decide)]
    exact BitVec.extractLsb'_append_eq_right
  · rw [BitVec.extractLsb'_append_eq_of_le (by decide)]
    exact BitVec.extractLsb'_append_eq_right

/-- The tag as a number: which quarter of the first bytes the byte lies in (R61, R72). -/
theorem tagOf_eq_ofNat {b : Byte} {k : Nat} (h : b.toNat / 64 = k) : tagOf b = BitVec.ofNat 2 k := by
  refine BitVec.eq_of_toNat_eq ?_
  rw [tagOf, BitVec.extractLsb'_toNat, Nat.shiftRight_eq_div_pow, BitVec.toNat_ofNat, ← h]

theorem lowSix_toNat (b : Byte) : (lowSix b).toNat = b.toNat % 64 := by
  rw [lowSix, BitVec.extractLsb'_toNat, Nat.shiftRight_zero]

/-- An extracted field is the shifted word under the mask of the field's width (R69). -/
theorem extractLsb'_eq_shift_mask {w : Nat} (start len : Nat) (x : BitVec w) :
    x.extractLsb' start len = ((x >>> start) &&& (BitVec.allOnes len).setWidth w).setWidth len := by
  ext i hi
  simp only [BitVec.getElem_extractLsb', BitVec.getElem_setWidth, BitVec.getLsbD_and, BitVec.getLsbD_ushiftRight,
    BitVec.getLsbD_setWidth, BitVec.getLsbD_allOnes, hi]
  by_cases hw : i < w
  · simp [hw]
  · simp [hw, BitVec.getLsbD_of_ge x (start + i) (by omega)]

/-- Putting two fields beside each other is a shift and an or (R69). -/
theorem append_eq_shift_or {v w : Nat} (x : BitVec v) (y : BitVec w) :
    x ++ y = (x.setWidth (v + w) <<< w) ||| y.setWidth (v + w) := by
  rw [BitVec.append_def, BitVec.shiftLeftZeroExtend_eq, BitVec.setWidth'_eq]

/-- A biased value that fits its field is the same number in the field and in a byte (R68, R69). -/
theorem setWidth_biasField {w : Nat} {bias v : Int} (hw : w ≤ 8) (hlo : -bias ≤ v) (hhi : v + bias < 2 ^ w) :
    (Machine.biasField w bias v).setWidth 8 = BitVec.ofInt 8 (v + bias) := by
  obtain ⟨k, hk⟩ := Int.eq_ofNat_of_zero_le (show 0 ≤ v + bias by omega)
  rw [hk] at hhi
  rw [Machine.biasField, hk, BitVec.ofInt_natCast, BitVec.ofInt_natCast]
  exact BitVec.setWidth_ofNat_of_le_of_lt hw (by exact_mod_cast hhi)

/-! ## The decoder, op by op (R71) -/

theorem decode_rgb (r g b : Byte) (rest : List Byte) :
    decode (0xFE#8 :: r :: g :: b :: rest) = .ok (.rgb r g b, rest) := rfl

theorem decode_rgba (r g b a : Byte) (rest : List Byte) :
    decode (0xFF#8 :: r :: g :: b :: a :: rest) = .ok (.rgba r g b a, rest) := rfl

theorem decode_of_not_fullByteTag {b : Byte} (hrgb : b ≠ 0xFE#8) (hrgba : b ≠ 0xFF#8) (tail : List Byte) :
    decode (b :: tail) = decodeShort b tail := by
  rw [decode_cons, if_neg hrgb, if_neg hrgba]

/-- Only the tag 11 is shared with the two full-byte tags (R61). -/
theorem decode_of_tagOf_ne {b : Byte} (h : tagOf b ≠ 0b11#2) (tail : List Byte) :
    decode (b :: tail) = decodeShort b tail :=
  decode_of_not_fullByteTag (by rintro rfl; exact h rfl) (by rintro rfl; exact h rfl) tail

theorem decode_index {b : Byte} (h : tagOf b = 0b00#2) (rest : List Byte) :
    decode (b :: rest) = .ok (.index (lowSix b), rest) := by
  rw [decode_of_tagOf_ne (by rw [h]; decide)]
  unfold decodeShort
  rw [if_pos h]

theorem decode_diff {b : Byte} (h : tagOf b = 0b01#2) (rest : List Byte) :
    decode (b :: rest) = .ok (.diff (b.extractLsb' 4 2) (b.extractLsb' 2 2) (b.extractLsb' 0 2), rest) := by
  rw [decode_of_tagOf_ne (by rw [h]; decide)]
  unfold decodeShort
  rw [if_neg (by rw [h]; decide), if_pos h]

theorem decode_luma {b : Byte} (h : tagOf b = 0b10#2) (b2 : Byte) (rest : List Byte) :
    decode (b :: b2 :: rest) = .ok (.luma (lowSix b) (b2.extractLsb' 4 4) (b2.extractLsb' 0 4), rest) := by
  rw [decode_of_tagOf_ne (by rw [h]; decide)]
  unfold decodeShort
  rw [if_neg (by rw [h]; decide), if_neg (by rw [h]; decide), if_pos h]

/-- A field of at most 61 keeps a byte with the tag 11 apart from the two full-byte tags (R67, R74). -/
theorem decode_run {b : Byte} (h : tagOf b = 0b11#2) (hx : (lowSix b).toNat ≤ 61) (rest : List Byte) :
    decode (b :: rest) = .ok (.run (lowSix b), rest) := by
  have hrgb : b ≠ 0xFE#8 := by rintro rfl; exact absurd hx (by decide)
  have hrgba : b ≠ 0xFF#8 := by rintro rfl; exact absurd hx (by decide)
  rw [decode_of_not_fullByteTag hrgb hrgba]
  unfold decodeShort
  rw [if_neg (by rw [h]; decide), if_neg (by rw [h]; decide), if_neg (by rw [h]; decide)]

/-! ## Decoding and encoding invert each other -/

/-- Settles O1: op by op, the tag selects the op and each field is read back from where it was put. -/
theorem decodeInvertsEncode : Obligations.DecodeInvertsEncode := by
  intro i rest hw
  cases i with
  | rgb r g b => exact decode_rgb r g b rest
  | rgba r g b a => exact decode_rgba r g b a rest
  | index x =>
    refine (decode_index (tagOf_append _ _) rest).trans ?_
    rw [lowSix_append]
  | diff rr gg bb =>
    obtain ⟨htag, hr, hg, hb⟩ := diff_fields_append 0b01#2 rr gg bb
    refine (decode_diff htag rest).trans ?_
    rw [hr, hg, hb]
  | luma g r b =>
    refine (decode_luma (tagOf_append _ _) (r ++ b) rest).trans ?_
    rw [lowSix_append, BitVec.extractLsb'_append_eq_left, BitVec.extractLsb'_append_eq_right]
  | run x =>
    have hx : (lowSix (0b11#2 ++ x)).toNat ≤ 61 := by
      rw [lowSix_append]
      exact of_decide_eq_true hw
    refine (decode_run (tagOf_append _ _) hx rest).trans ?_
    rw [lowSix_append]

theorem encode_of_decodeShort {b : Byte} {tail rest : List Byte} {i : Instr}
    (h : decodeShort b tail = .ok (i, rest)) : encode i ++ rest = b :: tail := by
  unfold decodeShort at h
  split at h
  next htag =>
    cases h
    show (0b00#2 ++ lowSix b) :: tail = b :: tail
    rw [← htag, tagOf_append_lowSix]
  next hindex =>
    split at h
    next htag =>
      cases h
      show (0b01#2 ++ b.extractLsb' 4 2 ++ b.extractLsb' 2 2 ++ b.extractLsb' 0 2) :: tail = b :: tail
      rw [← htag, diff_fields_join]
    next hdiff =>
      split at h
      next htag =>
        split at h
        next b2 _ =>
          cases h
          show (0b10#2 ++ lowSix b) :: (b2.extractLsb' 4 4 ++ b2.extractLsb' 0 4) :: rest = b :: b2 :: rest
          rw [← htag, tagOf_append_lowSix, nibbles_join]
        · cases h
      next hluma =>
        have htag : tagOf b = 0b11#2 := by bv_omega
        cases h
        show (0b11#2 ++ lowSix b) :: tail = b :: tail
        rw [← htag, tagOf_append_lowSix]

theorem encode_of_decode {bs rest : List Byte} {i : Instr} (h : decode bs = .ok (i, rest)) : encode i ++ rest = bs := by
  cases bs with
  | nil => cases h
  | cons b tail =>
    rw [decode_cons] at h
    split at h
    next hrgb =>
      split at h
      · cases h
        exact hrgb ▸ rfl
      · cases h
    · split at h
      next hrgba =>
        split at h
        · cases h
          exact hrgba ▸ rfl
        · cases h
      · exact encode_of_decodeShort h

/-- Settles O2: what decodes is well formed, and its fields put together again are the bytes read. -/
theorem encodeInvertsDecode : Obligations.EncodeInvertsDecode :=
  fun _ _ _ h => ⟨decode_wellFormed h, encode_of_decode h⟩

/-! ## The ranges of the first byte (R72) -/

theorem decode_index_of_range {b : Byte} (hhi : b.toNat ≤ 0x3F) (rest : List Byte) :
    decode (b :: rest) = .ok (.index (lowSix b), rest) :=
  decode_index (tagOf_eq_ofNat (by omega)) rest

theorem decode_diff_of_range {b : Byte} (hlo : 0x40 ≤ b.toNat) (hhi : b.toNat ≤ 0x7F) (rest : List Byte) :
    decode (b :: rest) = .ok (.diff (b.extractLsb' 4 2) (b.extractLsb' 2 2) (b.extractLsb' 0 2), rest) :=
  decode_diff (tagOf_eq_ofNat (by omega)) rest

theorem decode_luma_of_range {b : Byte} (hlo : 0x80 ≤ b.toNat) (hhi : b.toNat ≤ 0xBF) (b2 : Byte) (rest : List Byte) :
    decode (b :: b2 :: rest) = .ok (.luma (lowSix b) (b2.extractLsb' 4 4) (b2.extractLsb' 0 4), rest) :=
  decode_luma (tagOf_eq_ofNat (by omega)) b2 rest

theorem decode_run_of_range {b : Byte} (hlo : 0xC0 ≤ b.toNat) (hhi : b.toNat ≤ 0xFD) (rest : List Byte) :
    decode (b :: rest) = .ok (.run (lowSix b), rest) :=
  decode_run (tagOf_eq_ofNat (by omega)) (by rw [lowSix_toNat]; omega) rest

/-- Settles O3: the four ranges are those of the tags, and the two bytes above them are the full-byte tags. -/
theorem everyFirstByteSelectsItsOp : Obligations.EveryFirstByteSelectsItsOp := by
  intro b p1 p2 p3 p4 rest
  refine ⟨fun hhi => ⟨_, decode_index_of_range hhi _⟩, fun hlo hhi => ⟨_, _, _, decode_diff_of_range hlo hhi _⟩,
    fun hlo hhi => ⟨_, _, _, decode_luma_of_range hlo hhi _ _⟩, fun hlo hhi => ⟨_, decode_run_of_range hlo hhi _⟩,
    fun hb => ?_, fun hb => ?_⟩
  · obtain rfl : b = 0xFE#8 := BitVec.eq_of_toNat_eq hb
    exact decode_rgb p1 p2 p3 _
  · obtain rfl : b = 0xFF#8 := BitVec.eq_of_toNat_eq hb
    exact decode_rgba p1 p2 p3 p4 _

/-! ## Shifts and masks (R69) -/

theorem lowSix_eq_mask (b : Byte) : lowSix b = (b &&& 0x3F#8).setWidth 6 := extractLsb'_eq_shift_mask 0 6 b

theorem encode_index_eq_or (x : BitVec 6) : encode (.index x) = [0x00#8 ||| x.setWidth 8] :=
  congrArg (fun b => [b]) (append_eq_shift_or 0b00#2 x)

theorem encode_diff_eq_or : ∀ rr gg bb : BitVec 2,
    encode (.diff rr gg bb) =
      [0x40#8 ||| (rr.setWidth 8 <<< 4) ||| (gg.setWidth 8 <<< 2) ||| bb.setWidth 8] := by
  decide

theorem encode_luma_eq_or (g : BitVec 6) (r b : BitVec 4) :
    encode (.luma g r b) = [0x80#8 ||| g.setWidth 8, (r.setWidth 8 <<< 4) ||| b.setWidth 8] :=
  congrArg₂ (fun b1 b2 => [b1, b2]) (append_eq_shift_or 0b10#2 g) (append_eq_shift_or r b)

theorem encode_run_eq_or (x : BitVec 6) : encode (.run x) = [0xC0#8 ||| x.setWidth 8] :=
  congrArg (fun b => [b]) (append_eq_shift_or 0b11#2 x)

/-- Settles O4: extraction by `extractLsb'_eq_shift_mask`, assembly by the four equations above, and `setWidth_biasField`
for the differences. -/
theorem fieldsFollowShiftsAndMasks : Obligations.FieldsFollowShiftsAndMasks := by
  refine ⟨fun b rest hhi => ?_, fun b rest hlo hhi => ?_, fun b b2 rest hlo hhi => ?_, fun b rest hlo hhi => ?_,
    fun dr dg db hr hr' hg hg' hb hb' => ?_, fun dg dRG dBG hg hg' hr hr' hb hb' => ?_, encode_index_eq_or,
    fun n hpos hmax => ?_, rfl⟩
  · rw [decode_index_of_range hhi, lowSix_eq_mask]
  · have hr : b.extractLsb' 4 2 = ((b >>> 4) &&& 3#8).setWidth 2 := extractLsb'_eq_shift_mask 4 2 b
    have hg : b.extractLsb' 2 2 = ((b >>> 2) &&& 3#8).setWidth 2 := extractLsb'_eq_shift_mask 2 2 b
    have hb : b.extractLsb' 0 2 = (b &&& 3#8).setWidth 2 := extractLsb'_eq_shift_mask 0 2 b
    rw [decode_diff_of_range hlo hhi, hr, hg, hb]
  · have hr : b2.extractLsb' 4 4 = ((b2 >>> 4) &&& 0x0F#8).setWidth 4 := extractLsb'_eq_shift_mask 4 4 b2
    have hb : b2.extractLsb' 0 4 = (b2 &&& 0x0F#8).setWidth 4 := extractLsb'_eq_shift_mask 0 4 b2
    rw [decode_luma_of_range hlo hhi, lowSix_eq_mask, hr, hb]
  · rw [decode_run_of_range hlo hhi, lowSix_eq_mask]
  · rw [Machine.diffOp, encode_diff_eq_or, setWidth_biasField (by decide) hr (by omega),
      setWidth_biasField (by decide) hg (by omega), setWidth_biasField (by decide) hb (by omega)]
  · rw [encode_luma_eq_or, setWidth_biasField (by decide) hg (by omega), setWidth_biasField (by decide) hr (by omega),
      setWidth_biasField (by decide) hb (by omega)]
  · have hsub : (n - 1).setWidth 8 = n.setWidth 8 - 1 := by bv_omega
    rw [Machine.runOp, encode_run_eq_or, hsub]

/-! ## The ops the encoder emits (R74, R135, R152) -/

namespace Machine

theorem muxOp_wellFormed (px slot cur : Pixel) : (muxOp px slot cur).wellFormed = true := by
  unfold muxOp deltaOp
  split
  · rfl
  · split
    · split
      · rfl
      · split <;> rfl
    · rfl

/-- A run of 1 to 62 pixels has an op, with a field of 0 to 61 (R67, R135). -/
theorem runOp_wellFormed {n : BitVec 6} (hpos : n ≠ 0) (hmax : n.toNat ≤ 62) : (runOp n).wellFormed = true :=
  decide_eq_true (show (n - 1).toNat ≤ 61 by bv_omega)

/-- What a pixel step can emit: a RUN op for the run with this pixel or for the run before it, and the pixel's own op. -/
theorem mem_encOps {cur : Pixel} {s : State} {i : Instr} (h : i ∈ encOps cur s) :
    i = runOp (s.run + 1) ∨ (s.run ≠ 0 ∧ i = runOp s.run) ∨ i = muxOp s.px (slotGet s.idx (hash cur)) cur := by
  unfold encOps at h
  split at h
  · split at h
    · exact .inl (List.mem_singleton.1 h)
    · cases h
  · rcases List.mem_append.1 h with h | h
    · split at h
      · cases h
      next hrun => exact .inr (.inl ⟨hrun, List.mem_singleton.1 h⟩)
    · exact .inr (.inr (List.mem_singleton.1 h))

/-- Settles O24: both counts a RUN op can carry are 1 to 62, and the multiplexer emits no RUN op. -/
theorem encoderEmitsNoReservedField : Obligations.EncoderEmitsNoReservedField := by
  intro s cur hi i hmem
  unfold RunCounterInv at hi
  rcases mem_encOps hmem with rfl | ⟨hrun, rfl⟩ | rfl
  · exact runOp_wellFormed (by bv_omega) (by bv_omega)
  · exact runOp_wellFormed hrun (by omega)
  · exact muxOp_wellFormed _ _ _

end Machine

end Sys2Proof

/-! # Proofs: the datapath

The combinational datapath (spec 40 R80 to R95), the sizes of a valid descriptor (R97; 41 R105; 43 R146), and the
round trip of the encoder's choice through the decoder (R95, R136, R151). -/

namespace Sys2Proof.Machine

/-! ## The range tests (R91 to R93) -/

/-- Settles O56: both tests are conjunctions of `≤` tests, which `inDiff_iff` and `inLuma_iff` list. -/
theorem rangeTestsAreInclusive : Obligations.RangeTestsAreInclusive :=
  ⟨inDiff_iff, inLuma_iff⟩

/-- `to_s8` takes a value into the side range of LUMA only from that range, unless the value is close to ±256. -/
theorem toS8_side_range_iff {v : Int} (hlo : -248 < v) (hhi : v < 248) :
    (-8 ≤ toS8 v ∧ toS8 v ≤ 7) ↔ (-8 ≤ v ∧ v ≤ 7) := by
  unfold toS8
  omega

/-- Settles O55: once the green test has passed, a side difference lies in -159 to 159, too close to 0 for the narrowing
to bring it into the side range. -/
theorem lumaNarrowingIsInvisible : Obligations.LumaNarrowingIsInvisible := by
  intro dR dG dB hR hR' _ _ hB hB'
  rw [Bool.eq_iff_iff, inLuma_iff, inLuma_iff]
  refine and_congr_right fun ⟨hG, hG'⟩ => ?_
  rw [toS8_side_range_iff (by omega) (by omega), toS8_side_range_iff (by omega) (by omega)]

/-! ## The hash (R84, R85) -/

/-- Settles O53: 64 divides 256, so reduction modulo 256 on the way does not touch the low six bits. -/
theorem hashIsTheLowSixBits : Obligations.HashIsTheLowSixBits := by
  refine fun q => ⟨hash_toNat q, by omega, BitVec.eq_of_toNat_eq ?_⟩
  rw [hash_toNat]
  simp only [BitVec.toNat_setWidth, BitVec.toNat_add, BitVec.toNat_mul, BitVec.reduceToNat]
  omega

/-! ## The sizes of a valid descriptor (R97, R105, R146) -/

/-- The floor division of R104 leaves room for one more row of pixels (R105). -/
theorem validDesc_pixelCount_add_width {d : Desc} (h : validDesc d = true) :
    d.pixelCount + d.width.toNat ≤ 400000000 := by
  obtain ⟨-, -, -, -, hbound⟩ := (validDesc_iff d).1 h
  calc d.pixelCount + d.width.toNat
      = d.width.toNat * (d.height.toNat + 1) := (Nat.mul_succ _ _).symm
    _ ≤ d.width.toNat * (400000000 / d.width.toNat) := Nat.mul_le_mul_left _ hbound
    _ ≤ 400000000 := Nat.mul_div_le _ _

/-- Settles O52: the room for one more row, and fewer than 400,000,000 pixels of 3 or 4 channels. -/
theorem validDescriptorBoundsTheSizes : Obligations.ValidDescriptorBoundsTheSizes := by
  intro d h
  obtain ⟨-, hcount⟩ := validDesc_pixelCount h
  refine ⟨validDesc_pixelCount_add_width h, ?_⟩
  change d.pixelCount * d.channels.toNat < 1600000000 ∧ d.pixelCount * (d.channels.toNat + 1) + 22 ≤ 2000000017
  rcases validDesc_channels h with hc | hc <;> rw [hc] <;> omega

/-! ## Big-endian words (R80 to R82) -/

/-- The bytes of a word by division (R80). -/
theorem wordBytes_eq_div (v : Word) :
    wordBytes v = [BitVec.ofNat 8 (v.toNat / 16777216), BitVec.ofNat 8 (v.toNat / 65536),
      BitVec.ofNat 8 (v.toNat / 256), BitVec.ofNat 8 v.toNat] := by
  simp [wordBytes, BitVec.extractLsb', Nat.shiftRight_eq_div_pow]

/-- A byte put behind a bit vector is its last digit to the base 256. -/
theorem toNat_append_byte {w : Nat} (x : BitVec w) (b : Byte) : (x ++ b).toNat = x.toNat * 256 + b.toNat := by
  rw [BitVec.toNat_append, ← Nat.shiftLeft_add_eq_or_of_lt b.isLt, Nat.shiftLeft_eq]

/-- Four bytes are those of the word they make. -/
theorem wordBytes_append (b0 b1 b2 b3 : Byte) : wordBytes (b0 ++ b1 ++ b2 ++ b3) = [b0, b1, b2, b3] := by
  simp only [wordBytes_eq_div, toNat_append_byte, List.cons.injEq, and_true]
  refine ⟨?_, ?_, ?_, ?_⟩ <;> bv_omega

theorem readBytes_write32 (m : Memory) (a : Nat) (v : Word) :
    (write32 m a v).1.readBytes a 4 = some (wordBytes v) :=
  Memory.readBytes_writeBytes m a (wordBytes v)

/-- `read32` answers the word whose bytes stand at the address, and nothing else. -/
theorem read32_eq_some {m : Memory} {a o : Nat} {v : Word} :
    read32 m a = some (v, o) ↔ m.readBytes a 4 = some (wordBytes v) ∧ o = a + 4 := by
  refine ⟨fun h => ?_, fun ⟨hb, ho⟩ => ho ▸ read32_of_bytes hb⟩
  unfold read32 at h
  split at h
  next b0 b1 b2 b3 hb =>
    cases h
    exact ⟨by rw [hb, wordBytes_append], rfl⟩
  · cases h

/-- Settles O48: the written bytes are those of `wordBytes`, and the bytes read are those of the word they make. -/
theorem wordsAreBigEndian : Obligations.WordsAreBigEndian := by
  refine ⟨fun m a v => ⟨rfl, ?_, fun x hx => Memory.read_writeBytes_outside _ m hx⟩, fun m a b0 b1 b2 b3 hb => ?_⟩
  · rw [readBytes_write32, wordBytes_eq_div]
  · refine ⟨b0 ++ b1 ++ b2 ++ b3, read32_of_bytes (by rw [hb, wordBytes_append]), ?_⟩
    simp only [toNat_append_byte]
    omega

/-- Writing the bytes that stand there changes nothing. -/
theorem Memory.writeBytes_of_readBytes {bs : List Byte} {m : Memory} {a : Nat} (hm : m.wf)
    (h : m.readBytes a bs.length = some bs) : m.writeBytes a bs = m := by
  obtain ⟨-, hread⟩ := Memory.readBytes_eq_some.1 h
  clear h
  induction bs generalizing a with
  | nil => rfl
  | cons b bs ih =>
    have hfirst : m.read a = some b := hread 0 (Nat.succ_pos _)
    rw [Memory.writeBytes_cons, Memory.write_of_read hm hfirst]
    refine ih fun k hk => ?_
    rw [Nat.add_right_comm]
    exact hread (k + 1) (Nat.succ_lt_succ hk)

/-- Settles O49: both halves go through the four bytes of the word. -/
theorem wordWriteReadIsIdentity : Obligations.WordWriteReadIsIdentity := by
  refine ⟨fun m a v => read32_of_bytes (readBytes_write32 m a v), fun m a v o hm h => ?_⟩
  exact Memory.writeBytes_of_readBytes hm (read32_eq_some.1 h).1

/-! ## The delta unit (R88 to R90, R94, R95) -/

/-- A channel moved by any representative of the difference modulo 256 is the other channel. -/
theorem applyDelta_eq_of_emod {c p : Byte} {d : Int} (h : d % 256 = ((c.toNat : Int) - p.toNat) % 256) :
    applyDelta p d = c := by
  have hd := applyDelta_toNat p d
  refine BitVec.eq_of_toNat_eq ?_
  omega

theorem applyDelta_toS8_sub (c p : Byte) : applyDelta p (toS8 ((c.toNat : Int) - p.toNat)) = c :=
  applyDelta_eq_of_emod (toS8_emod _)

/-- The LUMA split: green's step and the narrowed rest add up to the channel's own difference modulo 256 (R95). -/
theorem applyDelta_add_toS8_sub (c p : Byte) (dG : Int) :
    applyDelta p (dG + toS8 (toS8 ((c.toNat : Int) - p.toNat) - dG)) = c := by
  refine applyDelta_eq_of_emod ?_
  rw [Int.add_emod, toS8_emod, ← Int.add_emod, add_sub_cancel, toS8_emod]

/-- Settles O54: the narrowing keeps values modulo 256, and a channel is a value modulo 256. -/
theorem deltaUnitRoundTrip : Obligations.DeltaUnitRoundTrip := by
  refine ⟨fun v => ?_, applyDelta_toS8_sub, fun cur prev => ⟨applyDelta_add_toS8_sub _ _ _, applyDelta_toS8_sub _ _,
    applyDelta_add_toS8_sub _ _ _⟩⟩
  obtain ⟨hlo, hhi⟩ := toS8_range v
  exact ⟨hlo, hhi, Int.emod_eq_emod_iff_emod_sub_eq_zero.1 (toS8_emod v).symm⟩

/-! ## The fields of a biased op (R68, R139, R140) -/

theorem biasField_toNat {w : Nat} {bias v : Int} (hlo : -bias ≤ v) (hhi : v + bias < 2 ^ w) :
    ((biasField w bias v).toNat : Int) = v + bias := by
  rw [biasField, BitVec.toNat_ofInt, Int.toNat_of_nonneg (Int.emod_nonneg _ (by positivity))]
  exact Int.emod_eq_of_lt (by omega) (by exact_mod_cast hhi)

theorem diffStep_biasField {v : Int} (hlo : -2 ≤ v) (hhi : v ≤ 1) : diffStep (biasField 2 2 v) = v := by
  rw [diffStep, biasField_toNat hlo (by omega), add_sub_cancel_right]

theorem lumaGreen_biasField {v : Int} (hlo : -32 ≤ v) (hhi : v ≤ 31) : lumaGreen (biasField 6 32 v) = v := by
  rw [lumaGreen, biasField_toNat hlo (by omega), add_sub_cancel_right]

theorem lumaSide_biasField (vg : Int) {v : Int} (hlo : -8 ≤ v) (hhi : v ≤ 7) :
    lumaSide vg (biasField 4 8 v) = vg + v := by
  rw [lumaSide, biasField_toNat hlo (by omega)]
  omega

/-! ## The op the encoder chooses, executed (R95, R136 to R142, R151) -/

section Chosen

variable {cur : Pixel} {s : State}

theorem opPixel_diffOp (ha : cur.a = s.px.a) (h : inDiff (delta cur s.px) = true) :
    opPixel (diffOp (delta cur s.px)) s = cur := by
  obtain ⟨⟨hr, hr'⟩, ⟨hg, hg'⟩, hb, hb'⟩ := (inDiff_iff _).1 h
  rw [diffOp, opPixel, diffStep_biasField hr hr', diffStep_biasField hg hg', diffStep_biasField hb hb', movePixel, ← ha]
  congr 1 <;> exact applyDelta_toS8_sub _ _

theorem opPixel_lumaOp (ha : cur.a = s.px.a)
    (h : inLuma (delta cur s.px).g (lumaRed (delta cur s.px)) (lumaBlue (delta cur s.px)) = true) :
    opPixel (lumaOp (delta cur s.px)) s = cur := by
  obtain ⟨⟨hg, hg'⟩, ⟨hr, hr'⟩, hb, hb'⟩ := (inLuma_iff _ _ _).1 h
  rw [lumaOp, opPixel, lumaGreen_biasField hg hg', lumaSide_biasField _ hr hr', lumaSide_biasField _ hb hb', movePixel,
    ← ha]
  congr 1
  · exact applyDelta_add_toS8_sub _ _ _
  · exact applyDelta_toS8_sub _ _
  · exact applyDelta_add_toS8_sub _ _ _

theorem opPixel_deltaOp (ha : cur.a = s.px.a) : opPixel (deltaOp (delta cur s.px) cur) s = cur := by
  unfold deltaOp
  split
  next hdiff => exact opPixel_diffOp ha hdiff
  · split
    next hluma => exact opPixel_lumaOp ha hluma
    · rw [opPixel, ← ha]

/-- The tables need agree only where an INDEX op reads (R151). -/
theorem opPixel_muxOp {slot : Pixel} (hslot : slot = cur → slotGet s.idx (hash cur) = cur) :
    opPixel (muxOp s.px slot cur) s = cur := by
  unfold muxOp
  split
  next hhit => exact hslot ((pixEq_iff _ _).1 hhit)
  · split
    next ha => exact opPixel_deltaOp ha
    · rfl

end Chosen

/-- The multiplexer chooses no RUN op, so executing its choice keeps `RUN`. -/
theorem opRun_muxOp (px slot cur : Pixel) (s : State) : opRun (muxOp px slot cur) s = s.run := by
  unfold muxOp deltaOp
  split
  · rfl
  · split
    · split
      · rfl
      · split <;> rfl
    · rfl

/-- Settles O23: the chosen op completes, as it has at most five bytes, and what it leaves is the slot step's law with
`PX = CUR`. -/
theorem emittedOpDecodesToThePixel : Obligations.EmittedOpDecodesToThePixel := by
  rintro px slot cur s rfl hslot ⟨hp, hout⟩
  have hlen := encode_length_le (muxOp s.px slot cur)
  obtain ⟨t, ht⟩ := (exec_completes_iff (muxOp s.px slot cur) s).2 ⟨by omega, hout⟩
  obtain ⟨hpx, hrun, -, hstored, hwritten, -⟩ := (exec_spec ht).1
  rw [opPixel_muxOp hslot] at hpx hstored hwritten
  exact ⟨t, ht, hpx, hrun.trans (opRun_muxOp _ _ _ s), hstored, hwritten⟩

end Sys2Proof.Machine

/-! # Proofs: the header

What a valid descriptor is (spec 41 R104), and reading back a header that was written (R107). -/

namespace Sys2Proof.Machine

/-! ## The four tests of a descriptor (R104) -/

/-- Settles O51: the tests of `validDesc_iff` with their words read as numbers, the bound on the height moved forward. -/
theorem validDescriptorIsTheFourTests : Obligations.ValidDescriptorIsTheFourTests := by
  intro d
  have hwidth : d.width ≠ 0 ↔ d.width.toNat > 0 := by bv_omega
  have hheight : d.height ≠ 0 ↔ d.height.toNat > 0 := by bv_omega
  have hchannels : d.channels = 3 ∨ d.channels = 4 ↔ d.channels.toNat = 3 ∨ d.channels.toNat = 4 := by bv_omega
  have hcolorspace : d.colorspace = 0 ∨ d.colorspace = 1 ↔ d.colorspace.toNat = 0 ∨ d.colorspace.toNat = 1 := by
    bv_omega
  rw [validDesc_iff, hwidth, hheight, hchannels, hcolorspace]
  exact and_congr_right' (and_congr_right' and_rotate.symm)

/-! ## Writing and reading a header (R107) -/

/-- A stretch of the bytes that stand in memory. -/
theorem Memory.readBytes_stretch {m : Memory} {a n : Nat} {bs : List Byte} (h : m.readBytes a n = some bs) (k : Nat)
    {j : Nat} (hkj : k + j ≤ n) : m.readBytes (a + k) j = some ((bs.drop k).take j) := by
  obtain ⟨hlen, hread⟩ := Memory.readBytes_eq_some.1 h
  refine Memory.readBytes_eq_some.2 ⟨?_, fun i hi => ?_⟩
  · rw [List.length_take, List.length_drop]
    omega
  · rw [Nat.add_assoc, hread (k + i) (by omega), List.getElem?_take_of_lt hi, List.getElem?_drop]

/-- `read_header` where the fourteen bytes of a header stand (R101). -/
theorem readHeader_of_bytes {m : Memory} {d : Desc} (h : m.readBytes 0 14 = some (headerBytes d)) :
    readHeader m = some (magicWord, d) := by
  have hmagic : read32 m 0 = some (magicWord, 4) :=
    read32_of_bytes (Memory.readBytes_stretch h 0 (by decide))
  have hwidth : read32 m 4 = some (d.width, 8) :=
    read32_of_bytes (Memory.readBytes_stretch h 4 (by decide))
  have hheight : read32 m 8 = some (d.height, 12) :=
    read32_of_bytes (Memory.readBytes_stretch h 8 (by decide))
  obtain ⟨-, hbyte⟩ := Memory.readBytes_eq_some.1 h
  have hchannels : m.read 12 = some d.channels := hbyte 12 (by decide)
  have hcolorspace : m.read 13 = some d.colorspace := hbyte 13 (by decide)
  simp only [readHeader, hmagic, hwidth, hheight, hchannels, hcolorspace]

/-- Settles O50: the write leaves the fourteen header bytes, and the reader finds every field among them. The
descriptor need not be valid. -/
theorem headerRoundTrip : Obligations.HeaderRoundTrip :=
  fun d m _ => readHeader_of_bytes (writeHeader_readBytes d m)

end Sys2Proof.Machine

/-! # Proofs: the decoder

What every step keeps of the index table (spec 42 R129), the ops and the slots of a decode run (R112 to R122), the START
step that begins it (R111), and the progress and the end of both kinds of run (42 R128; 43 R148). -/

namespace Sys2Proof.Machine

/-! ## The index table between steps (R129) -/

/-- A pixel step keeps the table or stores `CUR` in its slot (R138). -/
theorem encIdx_cases (cur : Pixel) (s : State) :
    encIdx cur s = s.idx ∨ encIdx cur s = slotSet s.idx (hash cur) cur := by
  unfold encIdx
  split
  · exact .inl rfl
  · split
    · exact .inl rfl
    · exact .inr rfl

theorem command_idx {s t : State} (h : command s = .next t) : t.idx = s.idx ∨ t.idx = clearTable := by
  rcases command_cases h with ⟨-, h⟩ | ⟨-, h⟩ | ⟨-, -, rfl⟩
  · rcases startEncode_cases h with ⟨e, -, rfl⟩ | ⟨-, -, -, rfl⟩
    · exact .inl rfl
    · exact .inr rfl
  · rcases startDecode_cases h with ⟨e, -, rfl⟩ | ⟨d, -, -, -, -, -, -, rfl⟩
    · exact .inl rfl
    · exact .inr rfl
  · exact .inl rfl

theorem encStep_idx {s t : State} (h : encStep s = .next t) : t.idx = s.idx ∨ ∃ q, IndexStored q s t := by
  rcases encStep_cases h with ⟨-, h⟩ | ⟨-, h⟩
  · obtain ⟨cur, -, -, -, rfl⟩ := encPixel_eq_next.1 h
    rcases encIdx_cases cur s with hidx | hidx
    · exact .inl hidx
    · exact .inr ⟨cur, fun k => (congrArg (slotGet · k) hidx).trans (slotGet_slotSet _ _ _ _)⟩
  · obtain ⟨-, rfl⟩ := encPad_eq_next.1 h
    exact .inl rfl

/-- All that a step can do to the index table: keep it, clear it, or store a pixel in the slot it hashes to. -/
theorem step_idx {s t : State} (h : step s = .next t) :
    t.idx = s.idx ∨ t.idx = clearTable ∨ ∃ q, IndexStored q s t := by
  rcases step_cases h with ⟨-, h⟩ | ⟨-, h⟩ | ⟨-, h⟩
  · exact (command_idx h).imp_right .inl
  · exact (encStep_idx h).imp_right .inr
  · obtain ⟨-, -, -, -, -, -, hidx, -⟩ := decSlot_spec h
    exact hidx.imp_right .inr

theorem slotInv_of_indexStored {q : Pixel} {s t : State} (hi : SlotInv s) (h : IndexStored q s t) : SlotInv t := by
  intro k
  rw [h k]
  split
  next hk => exact .inr hk.symm
  · exact hi k

/-- Settles O38: a step keeps the table, clears it, or stores a pixel in the slot it hashes to. -/
theorem stepKeepsSlotsHashed : Obligations.StepKeepsSlotsHashed := by
  intro s t hi h
  rcases step_idx h with hidx | hidx | ⟨q, hstored⟩
  · intro k
    rw [hidx]
    exact hi k
  · intro k
    rw [hidx]
    exact .inl (slotGet_clearTable k)
  · exact slotInv_of_indexStored hi hstored

/-! ## The six ops (R115 to R121) -/

/-- Settles O5: each sequence by the op that the range of its first byte selects. -/
theorem specBytesDecodeToTheirOps : Obligations.SpecBytesDecodeToTheirOps :=
  ⟨decode_rgb _ _ _ _, decode_rgba _ _ _ _ _, decode_index_of_range (by decide) _,
    decode_diff_of_range (by decide) (by decide) _, decode_luma_of_range (by decide) (by decide) _ _,
    decode_run_of_range (by decide) (by decide) _⟩

/-- With room for both cursors an op completes, and leaves the pixel and the counter that are its own. -/
theorem exec_completes (i : Instr) {s : State} (h : OpRoom (encode i).length s) :
    ∃ t, exec i s = .next t ∧ OpSlotDone (encode i).length (opPixel i s) (opRun i s) s t := by
  obtain ⟨t, ht⟩ := (exec_completes_iff i s).2 h
  exact ⟨t, ht, (exec_spec ht).1⟩

/-- Settles O7: RGB has four bytes and keeps alpha in `opPixel`. -/
theorem rgbOpTakesThreeChannels : Obligations.RgbOpTakesThreeChannels :=
  ⟨decode_rgb, fun r g b _ hroom => exec_completes (.rgb r g b) hroom⟩

/-- Settles O8: RGBA has five bytes, and `opPixel` is its payload. -/
theorem rgbaOpTakesFourChannels : Obligations.RgbaOpTakesFourChannels :=
  ⟨decode_rgba, fun r g b a _ hroom => exec_completes (.rgba r g b a) hroom⟩

/-- Storing the pixel that stands in its slot changes no slot. -/
theorem slotGet_eq_of_indexStored {s t : State} {x : BitVec 6} (h : IndexStored (slotGet s.idx x) s t)
    (hx : hash (slotGet s.idx x) = x) (k : BitVec 6) : slotGet t.idx k = slotGet s.idx k := by
  rw [h k, hx]
  split
  next hk => rw [hk]
  · rfl

/-- Settles O9: the byte's field by R69's masks; `opPixel` reads the table of the state before the slot. -/
theorem indexOpReadsTheSlot : Obligations.IndexOpReadsTheSlot := by
  obtain ⟨hdecode, -⟩ := fieldsFollowShiftsAndMasks
  refine ⟨hdecode, fun x s hroom => ?_⟩
  obtain ⟨t, ht, hdone⟩ := exec_completes (.index x) hroom
  have ⟨_, _, _, hstored, _⟩ := hdone
  exact ⟨t, ht, hdone, slotGet_eq_of_indexStored hstored⟩

/-- A channel under DIFF (R118). -/
theorem applyDelta_diffStep (c : Byte) (f : BitVec 2) :
    ((applyDelta c (diffStep f)).toNat : Int) = ((c.toNat : Int) + f.toNat - 2) % 256 := by
  rw [applyDelta_toNat, diffStep, add_sub_assoc]

/-- Green under LUMA (R119). -/
theorem applyDelta_lumaGreen (c : Byte) (g : BitVec 6) :
    ((applyDelta c (lumaGreen g)).toNat : Int) = ((c.toNat : Int) + ((g.toNat : Int) - 32)) % 256 := by
  rw [applyDelta_toNat, lumaGreen]

/-- Red and blue under LUMA (R119). -/
theorem applyDelta_lumaSide (c : Byte) (g : BitVec 6) (f : BitVec 4) :
    ((applyDelta c (lumaSide (lumaGreen g) f)).toNat : Int) =
      ((c.toNat : Int) + ((g.toNat : Int) - 32) - 8 + f.toNat) % 256 := by
  rw [applyDelta_toNat, lumaSide, lumaGreen]
  ring_nf

/-- Settles O10: `opPixel` moves each channel by its field, and `applyDelta` wraps. -/
theorem diffOpMovesEachChannel : Obligations.DiffOpMovesEachChannel := by
  obtain ⟨-, hdecode, -⟩ := fieldsFollowShiftsAndMasks
  refine ⟨hdecode, fun rr gg bb s hroom => ?_⟩
  obtain ⟨t, ht, hdone⟩ := exec_completes (.diff rr gg bb) hroom
  have hpx : t.px = movePixel s.px (diffStep rr) (diffStep gg) (diffStep bb) := hdone.1
  refine ⟨t, ht, ?_⟩
  rw [hpx]
  exact ⟨hdone, applyDelta_diffStep _ _, applyDelta_diffStep _ _, applyDelta_diffStep _ _, rfl⟩

/-- Settles O11: as for DIFF, with red and blue relative to green. -/
theorem lumaOpMovesByGreen : Obligations.LumaOpMovesByGreen := by
  obtain ⟨-, -, hdecode, -⟩ := fieldsFollowShiftsAndMasks
  refine ⟨hdecode, fun g r b s hroom => ?_⟩
  obtain ⟨t, ht, hdone⟩ := exec_completes (.luma g r b) hroom
  have hpx : t.px = movePixel s.px (lumaSide (lumaGreen g) r) (lumaGreen g) (lumaSide (lumaGreen g) b) := hdone.1
  refine ⟨t, ht, ?_⟩
  rw [hpx]
  exact ⟨hdone, applyDelta_lumaSide _ _ _, applyDelta_lumaGreen _ _, applyDelta_lumaSide _ _ _, rfl⟩

/-- Settles O12: `opRun` is the field and `opPixel` the old pixel. -/
theorem runOpLoadsTheCounter : Obligations.RunOpLoadsTheCounter := by
  obtain ⟨-, -, -, hdecode, -⟩ := fieldsFollowShiftsAndMasks
  exact ⟨hdecode, fun x _ hroom => exec_completes (.run x) hroom⟩

/-- Settles O13: the frame is the slot step's own; op by op only the clauses on `RUN`, alpha and `PX` remain. -/
theorem opsTouchNothingElse : Obligations.OpsTouchNothingElse := by
  intro i s t h
  obtain ⟨⟨hpx, hrun, -, hstored, -, hends⟩, hstream, hconst, hsame, -, -⟩ := exec_spec h
  refine ⟨hstream, hconst, hends, fun k hk => ?_, hsame, ?_⟩
  · rw [hpx] at hk
    rw [hstored k, if_neg hk]
  · cases i with
    | rgb r g b => exact ⟨hrun, (congrArg Pixel.a hpx :)⟩
    | rgba r g b a => exact hrun
    | index x => exact hrun
    | diff rr gg bb => exact ⟨hrun, (congrArg Pixel.a hpx :)⟩
    | luma g r b => exact ⟨hrun, (congrArg Pixel.a hpx :)⟩
    | run x => exact hpx

/-! ## The three kinds of slot (R112 to R114) -/

theorem decSlot_of_run {s : State} (hlt : s.pxpos.toNat < s.pxlen.toNat) (hrun : s.run ≠ 0) :
    decSlot s = repeatSlot s := by
  rw [decSlot, if_pos hlt, if_pos hrun]

theorem decSlot_of_fetchOp {s : State} {i : Instr} (hlt : s.pxpos.toNat < s.pxlen.toNat) (hrun : s.run = 0)
    (hbody : s.p.toNat + 8 < s.streamSize.toNat) (hf : fetchOp s = some i) : decSlot s = exec i s := by
  rw [decSlot, if_pos hlt, if_neg (not_not_intro hrun), if_pos (show bodyLeft s = true from decide_eq_true hbody), hf]

theorem decSlot_of_exhausted {s : State} (hlt : s.pxpos.toNat < s.pxlen.toNat) (hrun : s.run = 0)
    (hpad : s.streamSize.toNat ≤ s.p.toNat + 8) : decSlot s = exhaustedSlot s := by
  have hbody : ¬ bodyLeft s = true := fun hb => absurd (of_decide_eq_true hb) (by omega)
  rw [decSlot, if_pos hlt, if_neg (not_not_intro hrun), if_neg hbody]

/-- Settles O6: the bytes at `P` are what the slot fetches. -/
theorem stepRunsTheFetchedOp : Obligations.StepRunsTheFetchedOp := by
  intro s n bs i hphase hrun hlt hbody hbytes hdecode
  rw [step_of_busyDec hphase, decSlot_of_fetchOp hlt hrun hbody (fetchOp_of_bytes hbytes hdecode)]

/-- Settles O14: the slot is the output of the state with `RUN` one less. -/
theorem repeatSlotConsumesNoOp : Obligations.RepeatSlotConsumesNoOp := by
  intro s hphase hrun hlt hroom
  obtain ⟨t, ht⟩ := outputSlot_completes (s := s.setRun (s.run - 1)) hroom
  obtain ⟨hpx, hcount, hidx, hp, hstream, hconst, hout, hends, hsame, -⟩ := outputSlot_spec ht
  refine ⟨t, ?_, ?_, hpx, hidx, hp, hout, hends, hstream, hconst, hsame⟩
  · rw [step_of_busyDec hphase, decSlot_of_run hlt hrun, repeatSlot, ht]
  · rw [hcount, State.setRun_run]
    bv_omega

/-- Settles O15: the slot is the output of the state as it stands. -/
theorem exhaustedSlotRepeatsThePixel : Obligations.ExhaustedSlotRepeatsThePixel := by
  intro s hphase hrun hpad hlt hroom
  obtain ⟨t, ht⟩ := outputSlot_completes hroom
  obtain ⟨hpx, hcount, hidx, hp, hstream, hconst, hout, hends, hsame, -⟩ := outputSlot_spec ht
  refine ⟨t, ?_, hcount, hpx, hidx, hp, hout, hends, hstream, hconst, hsame⟩
  rw [step_of_busyDec hphase, decSlot_of_exhausted hlt hrun hpad, exhaustedSlot, ht]

/-- The output write of R122 with the two channel counts in one. -/
theorem outputWritten_iff {q : Pixel} {s t : State} :
    OutputWritten q s t ↔ t.pixels.readBytes s.pxpos.toNat s.outCh.count = some (outBytes s.outCh q) ∧
      t.pxpos.toNat = s.pxpos.toNat + s.outCh.count := by
  unfold OutputWritten
  cases s.outCh <;> exact Iff.rfl

theorem Memory.readBytes_writeBytes_outBytes (m : Memory) (a : Nat) (c : OutChannels) (q : Pixel) :
    (m.writeBytes a (outBytes c q)).readBytes a c.count = some (outBytes c q) := by
  rw [← outBytes_length c q, Memory.readBytes_writeBytes]

/-- Settles O16: whichever kind the slot is, PIXELS has the bytes of the new `PX` written at the old `PXPOS`. -/
theorem everySlotOutputsOnePixel : Obligations.EverySlotOutputsOnePixel := by
  intro s t hphase h
  rw [step_of_busyDec hphase] at h
  obtain ⟨-, -, -, hends, hpos, hpixels, -⟩ := decSlot_spec h
  refine ⟨outputWritten_iff.2 ⟨?_, hpos⟩, hends, fun x hx => ?_⟩
  · rw [hpixels, Memory.readBytes_writeBytes_outBytes]
  · rw [hpixels]
    exact Memory.read_writeBytes_outside _ _ (by rwa [outBytes_length])

/-! ## A pending run (R114, R120) -/

/-- Two stretches beside each other are one. -/
theorem SameOutside.append {a len len' : Nat} {m n p : Memory} (h : SameOutside a len m n)
    (h' : SameOutside (a + len) len' n p) : SameOutside a (len + len') m p :=
  fun x hx => (h' x (by omega)).trans (h x (by omega))

/-- A stretch before or behind the bytes that changed reads as before. -/
theorem SameOutside.readBytes {a len b k : Nat} {m n : Memory} (h : SameOutside a len m n)
    (hb : b + k ≤ a ∨ a + len ≤ b) : n.readBytes b k = m.readBytes b k :=
  Memory.readBytes_congr fun j _ => h (b + j) (by omega)

/-- A slot that leaves output to fill stays in the run (R126). -/
theorem phase_of_slotEnds {s t : State} (h : SlotEnds s t) (hne : t.pxpos.toNat ≠ s.pxlen.toNat) :
    t.phase = s.phase ∧ t.outLen = s.outLen := by
  rwa [SlotEnds, if_neg fun he => hne (congrArg BitVec.toNat he)] at h

/-- A slot that fills the output ends the run (R126). -/
theorem done_of_slotEnds {s t : State} (h : SlotEnds s t) (he : t.pxpos.toNat = s.pxlen.toNat) :
    t.phase = .done ∧ t.outLen = s.pxlen := by
  rwa [SlotEnds, if_pos (BitVec.eq_of_toNat_eq he)] at h

/-- Settles O17, by induction on the pending run: one run-repeat slot, and the rest of the run behind its pixel. -/
theorem pendingRunRepeatsItsPixel : Obligations.PendingRunRepeatsItsPixel := by
  intro n
  induction n with
  | zero =>
    intro s hphase hrun _
    exact ⟨s, rfl, BitVec.eq_of_toNat_eq hrun, rfl, rfl, rfl, hphase, rfl, by omega, nofun, fun _ _ => rfl⟩
  | succ n ih =>
    intro s hphase hrun hlt
    rw [Nat.succ_mul] at hlt ⊢
    have hfits := s.pxlen.isLt
    have hroom : SlotRoom s := by unfold SlotRoom; omega
    obtain ⟨u, hstep, hrunu, hpxu, hidxu, hpu, houtu, hendsu, hstreamu, hconst, hsameu⟩ :=
      repeatSlotConsumesNoOp s hphase (by rintro h0; simp [h0] at hrun) (by omega) hroom
    obtain ⟨hlenu, houtChu, -⟩ := hconst
    obtain ⟨hbytesu, hposu⟩ := outputWritten_iff.1 houtu
    obtain ⟨hphaseu, -⟩ := phase_of_slotEnds hendsu (by omega)
    obtain ⟨t, ht, hrunt, hpx, hidx, hp, hphaset, hstream, hpos, hbytes, hsame⟩ :=
      ih u (hphaseu.trans hphase) (by omega) (by rw [hposu, houtChu, hlenu]; omega)
    rw [houtChu, hposu] at hpos hbytes hsame
    rw [hpxu] at hbytes
    refine ⟨t, (core_run_succ hstep).trans ht, hrunt, hpx.trans hpxu, hidx.trans hidxu, hp.trans hpu, hphaset,
      hstream.trans hstreamu, by omega, fun k hk => ?_, Nat.add_comm _ (n * _) ▸ hsameu.append hsame⟩
    cases k with
    | zero =>
      rw [Nat.zero_mul, Nat.add_zero, hsame.readBytes (.inl (le_refl _))]
      exact hbytesu
    | succ k =>
      rw [Nat.succ_mul, Nat.add_comm (k * _), ← Nat.add_assoc]
      exact hbytes k (Nat.lt_of_succ_lt_succ hk)

/-! ## The START step of a decode run (R111, R162) -/

theorem reqChannelsOk_iff (c : Byte) : reqChannelsOk c = true ↔ c = 0 ∨ c = 3 ∨ c = 4 := by
  simp [reqChannelsOk, or_assoc]

/-- `OUT_CH` as a number (R29). -/
theorem outChannels_count {req channels : Byte} (hreq : req = 0 ∨ req = 3 ∨ req = 4)
    (hc : channels = 3 ∨ channels = 4) :
    (outChannels req channels).count = (if req = 0 then channels else req).toNat := by
  have h : (if req = 0 then channels else req) = 3 ∨ (if req = 0 then channels else req) = 4 := by
    split
    · exact hc
    next hne => exact hreq.resolve_left hne
  unfold outChannels
  rcases h with h | h <;> rw [h] <;> rfl

/-- A START_DECODE step that passes every check begins a decode run (R162). -/
theorem startDecode_begins {s : State} {d : Desc} (hreq : reqChannelsOk s.reqChannels = true)
    (hsize : 22 ≤ s.streamSize.toNat) (hloaded : s.stream.holdsExactly s.streamSize.toNat = true)
    (hread : readHeader s.stream = some (magicWord, d)) (hvalid : validDesc d = true)
    (hfits : d.pixelCount * (outChannels s.reqChannels d.channels).count ≤ s.outCap.toNat) :
    startDecode s = .next (beginDecode d s) := by
  have hheader : checkHeader magicWord d s = beginDecode d s := by
    rw [checkHeader, if_neg (by simp [hvalid]), if_neg (by omega)]
  rw [startDecode, if_neg (by simp [hreq]), if_neg (by omega), if_neg (by simp [hloaded]), hread]
  exact congrArg _ hheader

/-- Settles O28: the step is `beginDecode`, and its registers are those of R111; the length fits its register. -/
theorem startDecodeSetsTheInitialState : Obligations.StartDecodeSetsTheInitialState := by
  intro s d hq hcmd hreq hsize hloaded hread hvalid hfits
  obtain ⟨-, -, hchannels, -⟩ := (validDesc_iff d).1 hvalid
  have hcount := outChannels_count hreq hchannels
  obtain ⟨-, hlen⟩ := pxlen_toNat hvalid (outChannels s.reqChannels d.channels).count_eq
  rw [← hcount] at hfits ⊢
  have hstep : step s = .next (beginDecode d (s.setCmd 0)) := by
    rw [step_of_quiescent hq, command, if_neg (by rw [hcmd]; decide), if_pos hcmd]
    exact startDecode_begins ((reqChannelsOk_iff _).2 hreq) hsize hloaded hread hvalid hfits
  exact ⟨_, hstep, rfl, slotGet_clearTable, rfl, rfl, rfl, rfl, hlen, rfl, rfl, rfl, rfl, rfl, rfl, rfl, rfl, rfl,
    rfl⟩

/-! ## No busy step stops (R128, R148) -/

theorem opLength_le (b : Byte) : opLength b ≤ 5 := by
  unfold opLength
  split
  · omega
  · split
    · omega
    · split <;> omega

/-- Under the invariant the op at `P` has been loaded whole, payload in the padding included (R124, R193). -/
theorem fetchOp_of_decodeInv {s : State} (hi : DecodeInv s) (hbody : s.p.toNat + 8 < s.streamSize.toNat) :
    ∃ i, fetchOp s = some i := by
  have hcovers := Memory.holdsExactly_covers hi.loaded
  obtain ⟨b, hb⟩ := Option.isSome_iff_exists.1 (Memory.covers_read hcovers (a := s.p.toNat) (by omega))
  have hlen := opLength_le b
  obtain ⟨bs, hbs⟩ := Option.isSome_iff_exists.1
    (Memory.covers_readBytes hcovers (a := s.p.toNat) (len := opLength b) (by omega))
  obtain ⟨i, hf, -⟩ := fetchOp_isSome hb hbs
  exact ⟨i, hf⟩

theorem decSlot_completes {s : State} (hi : DecodeInv s) : ∃ t, decSlot s = .next t := by
  have hlt := hi.notFull
  have hroom : SlotRoom s := (next_pixel_le hi.len hi.aligned hlt).trans_lt s.pxlen.isLt
  by_cases hrun : s.run = 0
  · by_cases hbody : s.p.toNat + 8 < s.streamSize.toNat
    · obtain ⟨i, hf⟩ := fetchOp_of_decodeInv hi hbody
      have hsize := s.streamSize.isLt
      have hlen := encode_length_le i
      rw [decSlot_of_fetchOp hlt hrun hbody hf]
      exact (exec_completes_iff i s).2 ⟨by omega, hroom⟩
    · rw [decSlot_of_exhausted hlt hrun (by omega)]
      exact outputSlot_completes hroom
  · rw [decSlot_of_run hlt hrun]
    exact outputSlot_completes (s := s.setRun (s.run - 1)) hroom

/-- The fetch of `CUR` in a run without four channels (R133). -/
theorem fetchCur_of_three {s : State} {r g b : Byte} (hc : s.desc.channels ≠ 4)
    (hb : s.pixels.readBytes s.pxpos.toNat 3 = some [r, g, b]) : fetchCur s = some ⟨r, g, b, s.px.a⟩ := by
  unfold fetchCur
  rw [hb]
  exact if_neg hc

/-- The fetch of `CUR` in a run with four channels (R133). -/
theorem fetchCur_of_four {s : State} {r g b a : Byte} (hc : s.desc.channels = 4)
    (hb : s.pixels.readBytes s.pxpos.toNat 3 = some [r, g, b]) (ha : s.pixels.read (s.pxpos.toNat + 3) = some a) :
    fetchCur s = some ⟨r, g, b, a⟩ := by
  unfold fetchCur
  rw [hb, ha]
  exact if_pos hc

/-- The fetch of `CUR` succeeds where the pixel has been loaded (R133, R193). -/
theorem fetchCur_of_covers {s : State} (hcovers : s.pixels.covers s.pxlen.toNat = true)
    (hvalid : validDesc s.desc = true) (hle : s.pxpos.toNat + s.desc.channels.toNat ≤ s.pxlen.toNat) :
    ∃ cur, fetchCur s = some cur := by
  have hchannels := validDesc_channels hvalid
  obtain ⟨bs, hbs⟩ := Option.isSome_iff_exists.1
    (Memory.covers_readBytes hcovers (a := s.pxpos.toNat) (len := 3) (by omega))
  obtain ⟨r, g, b, rfl⟩ := List.length_eq_three.1 (Memory.readBytes_eq_some.1 hbs).1
  by_cases hfour : s.desc.channels = 4
  · have hc : s.desc.channels.toNat = 4 := by rw [hfour]; rfl
    obtain ⟨a, ha⟩ := Option.isSome_iff_exists.1 (Memory.covers_read hcovers (a := s.pxpos.toNat + 3) (by omega))
    exact ⟨_, fetchCur_of_four hfour hbs ha⟩
  · exact ⟨_, fetchCur_of_three hfour hbs⟩

/-- A run on a pixel boundary has a whole number of pixels to come. -/
theorem pixels_to_come {s : State} (hi : EncodeInv s) :
    ∃ k, s.pxpos.toNat + k * s.desc.channels.toNat = s.pxlen.toNat := by
  have hdvd : s.desc.channels.toNat ∣ s.pxlen.toNat - s.pxpos.toNat :=
    Nat.dvd_sub (hi.len ▸ Nat.dvd_mul_left _ _) (Nat.dvd_of_mod_eq_zero hi.aligned)
  have hinside := hi.inside
  obtain ⟨k, hk⟩ := hdvd
  exact ⟨k, by rw [Nat.mul_comm k]; omega⟩

/-- With `k` pixels to come there is room in the output for `k` ops, the pending run and the padding (R146). -/
theorem p_room_of_encodeInv {s : State} {k : Nat} (hi : EncodeInv s)
    (hk : s.pxpos.toNat + k * s.desc.channels.toNat = s.pxlen.toNat) :
    s.p.toNat + (if s.run = 0 then 0 else 1) + k * (s.desc.channels.toNat + 1) + 8 ≤ s.outCap.toNat := by
  have hpos : 0 < s.desc.channels.toNat := by rcases validDesc_channels hi.valid with hc | hc <;> omega
  have hcount : s.desc.pixelCount = s.pxpos.toNat / s.desc.channels.toNat + k := by
    rw [← Nat.add_mul_div_right _ _ hpos, hk, hi.len, Nat.mul_div_cancel _ hpos]
  have hfits := hi.fits
  rw [Desc.encodeNeed, hcount, Nat.add_mul] at hfits
  have hhigh := hi.high
  omega

theorem encPixel_completes {s : State} (hi : EncodeInv s) (hlt : s.pxpos.toNat < s.pxlen.toNat) :
    ∃ t, encPixel s = .next t := by
  have hle := next_pixel_le hi.len hi.aligned hlt
  obtain ⟨cur, hcur⟩ := fetchCur_of_covers (Memory.holdsExactly_covers hi.loaded) hi.valid hle
  obtain ⟨k, hk⟩ := pixels_to_come hi
  have hone : 1 ≤ k := by
    refine Nat.one_le_iff_ne_zero.2 fun h0 => ?_
    rw [h0, Nat.zero_mul] at hk
    omega
  have hroom := p_room_of_encodeInv hi hk
  have hemit := encOps_length_le hi.valid hcur
  have hmul := Nat.mul_le_mul_right (s.desc.channels.toNat + 1) hone
  have hcap := s.outCap.isLt
  have hlen := s.pxlen.isLt
  exact ⟨_, encPixel_eq_next.2 ⟨cur, hcur, by omega, by omega, rfl⟩⟩

theorem encPad_completes {s : State} (hi : EncodeInv s) (hend : s.pxpos = s.pxlen) : ∃ t, encPad s = .next t := by
  have hroom := p_room_of_encodeInv (k := 0) hi (by rw [hend]; omega)
  have hcap := s.outCap.isLt
  exact ⟨_, encPad_eq_next.2 ⟨by omega, rfl⟩⟩

theorem encStep_of_lt {s : State} (hlt : s.pxpos.toNat < s.pxlen.toNat) : encStep s = encPixel s := if_pos hlt

theorem encStep_of_end {s : State} (hend : s.pxpos = s.pxlen) : encStep s = encPad s := by
  rw [encStep, if_neg (by rw [hend]; omega), if_pos hend]

theorem encStep_completes {s : State} (hi : EncodeInv s) : ∃ t, encStep s = .next t := by
  rcases hi.inside.lt_or_eq with hlt | hend
  · rw [encStep_of_lt hlt]
    exact encPixel_completes hi hlt
  · rw [encStep_of_end (BitVec.eq_of_toNat_eq hend)]
    exact encPad_completes hi (BitVec.eq_of_toNat_eq hend)

/-- Settles O41: each kind of slot, the pixel step and the padding step complete under their run's invariant. -/
theorem busyStepCannotFail : Obligations.BusyStepCannotFail := by
  rintro s ⟨-, -, -, hdec, henc⟩ hbusy
  unfold SafeStep
  cases hphase : s.phase with
  | busyDec =>
    rw [step_of_busyDec hphase]
    exact decSlot_completes (hdec hphase)
  | busyEnc =>
    rw [step_of_busyEnc hphase]
    exact encStep_completes (henc hphase)
  | idle | done | error => rw [hphase] at hbusy; cases hbusy

/-! ## A run ends on time (R126, R128, R147, R148) -/

/-- The run is in the phase `ph` for `k` steps and then in `DONE`, in a state of which `Q` holds. -/
def DoneAfter (ph : Phase) (Q : State → Prop) (k : Nat) (s : State) : Prop :=
  (∀ j, j < k → ∃ u, Sys2Proof.core.run j s = .next u ∧ u.phase = ph) ∧
    ∃ t, Sys2Proof.core.run k s = .next t ∧ t.phase = .done ∧ Q t

theorem doneAfter_zero {ph : Phase} {Q : State → Prop} {s : State} (hdone : s.phase = .done) (hq : Q s) :
    DoneAfter ph Q 0 s :=
  ⟨nofun, s, rfl, hdone, hq⟩

theorem doneAfter_succ {ph : Phase} {Q : State → Prop} {k : Nat} {s t : State} (hphase : s.phase = ph)
    (hstep : step s = .next t) (h : DoneAfter ph Q k t) : DoneAfter ph Q (k + 1) s := by
  obtain ⟨hbusy, hdone⟩ := h
  rw [DoneAfter, core_run_succ hstep]
  refine ⟨fun j hj => ?_, hdone⟩
  cases j with
  | zero => exact ⟨s, rfl, hphase⟩
  | succ j =>
    rw [core_run_succ hstep]
    exact hbusy j (Nat.lt_of_succ_lt_succ hj)

/-- By induction on the pixels to fill: each slot fills one, and the last one ends the run. -/
theorem decode_doneAfter (k : Nat) (s : State) (hi : RunInv s) (hphase : s.phase = .busyDec)
    (hk : s.pxpos.toNat + k * s.outCh.count = s.pxlen.toNat) :
    DoneAfter .busyDec (fun t => t.outLen = s.pxlen) k s := by
  induction k generalizing s with
  | zero =>
    obtain ⟨-, -, -, hdec, -⟩ := hi
    have hlt := (hdec hphase).notFull
    omega
  | succ k ih =>
    obtain ⟨t, hstep⟩ := busyStepCannotFail s hi (by rw [hphase]; rfl)
    obtain ⟨-, -, ⟨hlen, hch, -⟩, hends, hpos, -⟩ := decSlot_spec ((step_of_busyDec hphase).symm.trans hstep)
    rw [Nat.succ_mul] at hk
    refine doneAfter_succ hphase hstep ?_
    cases k with
    | zero =>
      obtain ⟨hdone, hout⟩ := done_of_slotEnds hends (by omega)
      exact doneAfter_zero hdone hout
    | succ k =>
      have hcount := s.outCh.count_eq
      rw [Nat.succ_mul] at hk
      obtain ⟨hbusy, -⟩ := phase_of_slotEnds hends (by omega)
      rw [← hlen]
      refine ih t (stepKeepsTheRunInvariant s t hi hstep) (hbusy.trans hphase) ?_
      rw [hch, hlen, hpos, Nat.succ_mul]
      omega

/-- By induction on the pixels to come: each pixel step takes one, and the padding step ends the run. -/
theorem encode_doneAfter (k : Nat) (s : State) (hi : RunInv s) (hphase : s.phase = .busyEnc)
    (hk : s.pxpos.toNat + k * s.desc.channels.toNat = s.pxlen.toNat) :
    DoneAfter .busyEnc (fun t => t.outLen = t.p) (k + 1) s := by
  induction k generalizing s with
  | zero =>
    have hend : s.pxpos = s.pxlen := BitVec.eq_of_toNat_eq (by omega)
    obtain ⟨t, hstep⟩ := busyStepCannotFail s hi (by rw [hphase]; rfl)
    have hpad : encPad s = .next t := by rw [← encStep_of_end hend, ← step_of_busyEnc hphase, hstep]
    obtain ⟨-, rfl⟩ := encPad_eq_next.1 hpad
    exact doneAfter_succ hphase hstep (doneAfter_zero rfl rfl)
  | succ k ih =>
    rw [Nat.succ_mul] at hk
    have ⟨_, _, _, _, henc⟩ := hi
    have hchannels := validDesc_channels (henc hphase).valid
    obtain ⟨t, hstep⟩ := busyStepCannotFail s hi (by rw [hphase]; rfl)
    have hpixel : encPixel s = .next t := by
      rw [← encStep_of_lt (by omega), ← step_of_busyEnc hphase, hstep]
    have hinv := stepKeepsTheRunInvariant s t hi hstep
    obtain ⟨cur, -, -, hroom, rfl⟩ := encPixel_eq_next.1 hpixel
    have hpos := cursor_add hroom
    exact doneAfter_succ hphase hstep (ih _ hinv hphase (by dsimp only; omega))

/-- Settles O43: both kinds of run, each by its own induction. -/
theorem busyRunEndsOnTime : Obligations.BusyRunEndsOnTime :=
  fun k s hi => ⟨decode_doneAfter k s hi, encode_doneAfter k s hi⟩

end Sys2Proof.Machine

/-! # Proofs: the encoder

The fetch of `CUR` (spec 43 R133), the pixel step by its three cases (R132 to R138), the bytes of the emitted ops (R135 to
R142), the bounds on what a step emits (R146), the padding step (R147) and the START step of an encode run (R131). -/

namespace Sys2Proof

/-- Two fields beside each other are the digits of a number (R69). -/
theorem toNat_append_eq_mul_add {v w : Nat} (x : BitVec v) (y : BitVec w) :
    (x ++ y).toNat = x.toNat * 2 ^ w + y.toNat := by
  rw [BitVec.toNat_append, ← Nat.shiftLeft_add_eq_or_of_lt y.isLt, Nat.shiftLeft_eq]

/-- The byte of a RUN op as a number (R67). -/
theorem encode_run_eq_ofNat (x : BitVec 6) : encode (.run x) = [BitVec.ofNat 8 (0xC0 + x.toNat)] := by
  refine congrArg (fun b => [b]) (BitVec.eq_of_toNat_eq ?_)
  rw [toNat_append_eq_mul_add]
  simp only [BitVec.toNat_ofNat]
  omega

theorem encode_index_eq_setWidth (x : BitVec 6) : encode (.index x) = [x.setWidth 8] := by
  rw [encode_index_eq_or, BitVec.zero_or]

namespace Machine

/-! ## The fetch of `CUR` (R133) -/

/-- Settles O18: with four channels the three bytes and the alpha byte are the four bytes that stand there. -/
theorem curIsFetchedInChannelOrder : Obligations.CurIsFetchedInChannelOrder := by
  refine ⟨fun s r g b a hc hb => ?_, fun s r g b hc hb => fetchCur_of_three (by rw [hc]; decide) hb⟩
  obtain ⟨-, hread⟩ := Memory.readBytes_eq_some.1 hb
  exact fetchCur_of_four hc (Memory.readBytes_stretch hb 0 (by decide)) (hread 3 (by decide))

/-! ## The pixel step by its cases (R134, R135, R138) -/

theorem Memory.writeBytes_sameOutside (m : Memory) (a : Nat) (bs : List Byte) :
    SameOutside a bs.length m (m.writeBytes a bs) :=
  fun _ hx => m.read_writeBytes_outside bs hx

theorem runConstants_refl (s : State) : RunConstants s s := ⟨rfl, rfl, rfl, rfl, rfl, rfl, rfl, rfl⟩

theorem step_of_pixel {s : State} (hphase : s.phase = .busyEnc) (hlt : s.pxpos.toNat < s.pxlen.toNat) :
    step s = encPixel s := by
  rw [step_of_busyEnc hphase, encStep_of_lt hlt]

section EqualPixel

variable {s : State}

theorem encOps_of_flush (h : flushNow s = true) : encOps s.px s = [runOp (s.run + 1)] := by
  rw [encOps, if_pos (pixEq_self _), if_pos h]

theorem encRun_of_flush (h : flushNow s = true) : encRun s.px s = 0 := by
  rw [encRun, if_pos (pixEq_self _), if_pos h]

theorem encOps_of_count (h : ¬ flushNow s = true) : encOps s.px s = [] := by
  rw [encOps, if_pos (pixEq_self _), if_neg h]

theorem encRun_of_count (h : ¬ flushNow s = true) : encRun s.px s = s.run + 1 := by
  rw [encRun, if_pos (pixEq_self _), if_neg h]

theorem encIdx_of_equal : encIdx s.px s = s.idx := if_pos (pixEq_self _)

/-- The test of R134 on numbers. -/
theorem flushNow_iff (hrun : s.run.toNat ≤ 61) :
    flushNow s = true ↔ s.run.toNat + 1 = 62 ∨ s.pxpos.toNat + s.desc.channels.toNat = s.pxlen.toNat := by
  have hcount : s.run + 1 = 62 ↔ s.run.toNat + 1 = 62 := by bv_omega
  rw [flushNow, isLast, Bool.or_eq_true, decide_eq_true_iff, decide_eq_true_iff, hcount]

/-- The flushed run with this pixel, as its byte (R134, R135). -/
theorem encode_runOp_succ (hrun : s.run.toNat ≤ 61) :
    encode (runOp (s.run + 1)) = [BitVec.ofNat 8 (0xC0 + s.run.toNat)] := by
  have hsub : s.run + 1 - 1 = s.run := by bv_omega
  rw [runOp, hsub, encode_run_eq_ofNat]

end EqualPixel

/-- Settles O19: the pixel is counted, or counted and flushed as one byte. -/
theorem equalPixelAccumulatesTheRun : Obligations.EqualPixelAccumulatesTheRun := by
  intro s hphase hlt hcur hrun hp hx
  rw [step_of_pixel hphase hlt]
  by_cases hflush : flushNow s = true
  · have hbytes : (encOps s.px s).flatMap encode = [BitVec.ofNat 8 (0xC0 + s.run.toNat)] := by
      rw [encOps_of_flush hflush, List.flatMap_singleton, encode_runOp_succ hrun]
    refine ⟨_, encPixel_eq_next.2 ⟨s.px, hcur, by rw [hbytes]; exact hp, hx, rfl⟩, rfl, encIdx_of_equal, cursor_add hx,
      rfl, runConstants_refl s, rfl, rfl, ?_⟩
    rw [if_pos ((flushNow_iff hrun).1 hflush)]
    dsimp only
    rw [hbytes]
    exact ⟨encRun_of_flush hflush, cursor_add hp, Memory.read_write_self _ _ _, Memory.write_sameOutside _ _ _⟩
  · have hbytes : (encOps s.px s).flatMap encode = [] := by rw [encOps_of_count hflush, List.flatMap_nil]
    refine ⟨_, encPixel_eq_next.2 ⟨s.px, hcur, by rw [hbytes]; exact s.p.isLt, hx, rfl⟩, rfl, encIdx_of_equal,
      cursor_add hx, rfl, runConstants_refl s, rfl, rfl, ?_⟩
    rw [if_neg (mt (flushNow_iff hrun).2 hflush)]
    dsimp only
    rw [hbytes, encRun_of_count hflush]
    exact ⟨by bv_omega, BitVec.add_zero _, rfl⟩

section NewPixel

variable {s : State} {cur : Pixel}

theorem encOps_of_new (h : cur ≠ s.px) :
    encOps cur s = (if s.run = 0 then [] else [runOp s.run]) ++ [muxOp s.px (slotGet s.idx (hash cur)) cur] :=
  if_neg (mt (pixEq_iff _ _).1 h)

theorem encRun_of_new (h : cur ≠ s.px) : encRun cur s = 0 := if_neg (mt (pixEq_iff _ _).1 h)

/-- Storing `CUR` only when it does not stand in its slot leaves the table as storing it always (R138). -/
theorem slotGet_encIdx_of_new (h : cur ≠ s.px) (k : BitVec 6) :
    slotGet (encIdx cur s) k = if k = hash cur then cur else slotGet s.idx k := by
  rw [encIdx, if_neg (mt (pixEq_iff _ _).1 h)]
  split
  next hhit =>
    split
    next hk => rw [hk, (pixEq_iff _ _).1 hhit]
    · rfl
  · exact slotGet_slotSet _ _ _ _

/-- A pending run as its byte (R135). -/
theorem encode_runOp_of_ne_zero (hrun : s.run ≠ 0) :
    encode (runOp s.run) = [BitVec.ofNat 8 (0xC0 + (s.run.toNat - 1))] := by
  have hsub : (s.run - 1).toNat = s.run.toNat - 1 := by bv_omega
  rw [runOp, encode_run_eq_ofNat, hsub]

end NewPixel

/-- Settles O20: the bytes are the flushed run's and the op's; the pixel's own op has at most five of them. -/
theorem newPixelFlushesThenEmits : Obligations.NewPixelFlushesThenEmits := by
  intro s cur hphase hlt hcur hne hp hx bytes
  have hbytes : (encOps cur s).flatMap encode = bytes := by
    rw [encOps_of_new hne, List.flatMap_append, List.flatMap_singleton]
    congr 1
    split
    · rfl
    next hrun => rw [List.flatMap_singleton, encode_runOp_of_ne_zero hrun]
  have hlen : bytes.length ≤ 6 := by
    obtain ⟨-, hmux⟩ := muxOp_length s.px (slotGet s.idx (hash cur)) cur
    rw [← hbytes, encOps_length, if_neg (mt (pixEq_iff _ _).1 hne)]
    split <;> omega
  have hroom : s.p.toNat + bytes.length < 4294967296 := by omega
  rw [step_of_pixel hphase hlt]
  refine ⟨_, encPixel_eq_next.2 ⟨cur, hcur, by rw [hbytes]; exact hroom, hx, rfl⟩, ?_⟩
  rw [hbytes]
  exact ⟨Memory.readBytes_writeBytes _ _ _, cursor_add hroom, Memory.writeBytes_sameOutside _ _ _, encRun_of_new hne, rfl,
    slotGet_encIdx_of_new hne, cursor_add hx, rfl, runConstants_refl s, rfl, rfl⟩

/-! ## The bytes of the multiplexer's choice (R136 to R142) -/

/-- The byte of a DIFF op by its differences (R139). -/
theorem encode_diffOp {d : Deltas} (h : inDiff d = true) :
    encode (diffOp d) = [BitVec.ofInt 8 (64 + 16 * (d.r + 2) + 4 * (d.g + 2) + (d.b + 2))] := by
  obtain ⟨⟨hr, hr'⟩, ⟨hg, hg'⟩, hb, hb'⟩ := (inDiff_iff d).1 h
  have hfr := biasField_toNat (w := 2) hr (by omega)
  have hfg := biasField_toNat (w := 2) hg (by omega)
  have hfb := biasField_toNat (w := 2) hb (by omega)
  refine congrArg (fun b => [b]) (BitVec.eq_of_toNat_eq ?_)
  rw [toNat_append_eq_mul_add, toNat_append_eq_mul_add, toNat_append_eq_mul_add, BitVec.toNat_ofInt]
  simp only [BitVec.toNat_ofNat]
  omega

/-- The bytes of a LUMA op by its differences (R140). -/
theorem encode_lumaOp {d : Deltas} (h : inLuma d.g (lumaRed d) (lumaBlue d) = true) :
    encode (lumaOp d) =
      [BitVec.ofInt 8 (128 + (d.g + 32)), BitVec.ofInt 8 (16 * (lumaRed d + 8) + (lumaBlue d + 8))] := by
  obtain ⟨⟨hg, hg'⟩, ⟨hr, hr'⟩, hb, hb'⟩ := (inLuma_iff _ _ _).1 h
  have hfg := biasField_toNat (w := 6) hg (by omega)
  have hfr := biasField_toNat (w := 4) hr (by omega)
  have hfb := biasField_toNat (w := 4) hb (by omega)
  refine congrArg₂ (fun b1 b2 => [b1, b2]) (BitVec.eq_of_toNat_eq ?_) (BitVec.eq_of_toNat_eq ?_)
  · rw [toNat_append_eq_mul_add, BitVec.toNat_ofInt]
    simp only [BitVec.toNat_ofNat]
    omega
  · rw [toNat_append_eq_mul_add, BitVec.toNat_ofInt]
    omega

section Choice

variable {px slot cur : Pixel}

theorem muxOp_of_hit (h : slot = cur) : muxOp px slot cur = .index (hash cur) := if_pos ((pixEq_iff _ _).2 h)

theorem muxOp_of_alpha_ne (h : slot ≠ cur) (ha : cur.a ≠ px.a) : muxOp px slot cur = .rgba cur.r cur.g cur.b cur.a := by
  rw [muxOp, if_neg (mt (pixEq_iff _ _).1 h), if_neg ha]

theorem muxOp_of_alpha_eq (h : slot ≠ cur) (ha : cur.a = px.a) : muxOp px slot cur = deltaOp (delta cur px) cur := by
  rw [muxOp, if_neg (mt (pixEq_iff _ _).1 h), if_pos ha]

end Choice

/-- Settles O21: the choice by `muxOp`'s and `deltaOp`'s tests, which are the spec's inequalities on `delta`. -/
theorem multiplexerEmitsTheTable : Obligations.MultiplexerEmitsTheTable := by
  intro px slot cur s8 dR dG dB dRG dBG fitsDiff fitsLuma bytes
  have hdiff : fitsDiff ↔ inDiff (delta cur px) = true := (inDiff_iff (delta cur px)).symm
  have hluma : fitsLuma ↔ inLuma (delta cur px).g (lumaRed (delta cur px)) (lumaBlue (delta cur px)) = true :=
    (inLuma_iff _ _ _).symm
  refine ⟨fun h => ?_, fun h ha => ?_, fun h ha hd => ?_, fun h ha hd hl => ?_, fun h ha hd hl => ?_⟩
  · exact (congrArg encode (muxOp_of_hit h)).trans (encode_index_eq_setWidth _)
  · exact congrArg encode (muxOp_of_alpha_ne h ha)
  · rw [hdiff] at hd
    exact (congrArg encode ((muxOp_of_alpha_eq h ha).trans (if_pos hd))).trans (encode_diffOp hd)
  · rw [hdiff] at hd
    rw [hluma] at hl
    exact (congrArg encode ((muxOp_of_alpha_eq h ha).trans ((if_neg hd).trans (if_pos hl)))).trans (encode_lumaOp hl)
  · rw [hdiff] at hd
    rw [hluma] at hl
    exact congrArg encode ((muxOp_of_alpha_eq h ha).trans ((if_neg hd).trans (if_neg hl)))

/-! ## What a pixel step can emit (R133, R146) -/

/-- Settles O25: the fetch keeps alpha, and then the multiplexer's op is shorter than an RGBA op. -/
theorem threeChannelRunEmitsNoRgba : Obligations.ThreeChannelRunEmitsNoRgba := by
  intro s cur hc hcur r g b a hmem
  have halpha : cur.a = s.px.a := fetchCur_alpha hcur (by rw [hc]; decide)
  rcases mem_encOps hmem with h | ⟨-, h⟩ | h
  · cases h
  · cases h
  · have hlen := muxOp_length_of_alpha_eq (slot := slotGet s.idx (hash cur)) halpha
    rw [← h] at hlen
    exact absurd hlen (by simp [encode])

/-- Settles O26: with three channels alpha is kept, so the pixel's own op has at most four bytes; else at most five. -/
theorem pixelStepEmissionIsBounded : Obligations.PixelStepEmissionIsBounded := by
  intro s cur hc hcur
  have hmux : (encode (muxOp s.px (slotGet s.idx (hash cur)) cur)).length ≤ s.desc.channels.toNat + 1 := by
    rcases hc with hc | hc <;> rw [hc]
    · exact muxOp_length_of_alpha_eq (fetchCur_alpha hcur (by rw [hc]; decide))
    · exact encode_length_le _
  rw [encOps_length]
  split
  · split <;> omega
  · omega

/-! ## The padding step (R147) -/

/-- Settles O22: the step is one write of the eight sentinel bytes at `P`. -/
theorem paddingStepEndsTheRun : Obligations.PaddingStepEndsTheRun := by
  intro s hphase hend hp
  rw [step_of_busyEnc hphase, encStep_of_end hend]
  exact ⟨_, encPad_eq_next.2 ⟨hp, rfl⟩, Memory.readBytes_writeBytes _ _ padBytes, cursor_add hp, rfl, rfl,
    Memory.writeBytes_sameOutside _ _ padBytes, rfl, runConstants_refl s, rfl, rfl, rfl, rfl⟩

/-! ## The START step of an encode run (R131, R164) -/

/-- A START_ENCODE step that passes every check begins an encode run (R164). -/
theorem step_beginEncode {s : State} (hq : s.phase.busy = false) (hcmd : s.cmd = 1) (hvalid : validDesc s.desc = true)
    (hfits : s.desc.encodeNeed ≤ s.outCap.toNat)
    (hloaded : s.pixels.holdsExactly (s.desc.pixelCount * s.desc.channels.toNat) = true) :
    step s = .next (beginEncode (s.setCmd 0)) := by
  rw [step_of_quiescent hq, command, if_pos hcmd, startEncode, State.setCmd_desc, if_neg (by simp [hvalid]),
    State.setCmd_outCap, if_neg (by omega), State.setCmd_pixels, if_neg (by simp [hloaded])]

/-- Settles O30: the step is `beginEncode`; the header is one write of fourteen bytes, the length fits its register. -/
theorem startEncodeWritesTheHeader : Obligations.StartEncodeWritesTheHeader := by
  intro s hq hcmd hvalid hfits hloaded
  obtain ⟨-, hlen⟩ := pxlen_toNat hvalid (validDesc_channels hvalid)
  have hheader : (writeHeader s.desc s.stream).readBytes 0 14 = some (headerBytes s.desc) := writeHeader_readBytes _ _
  rw [headerBytes, wordBytes_eq_div s.desc.width, wordBytes_eq_div s.desc.height] at hheader
  exact ⟨_, step_beginEncode hq hcmd hvalid hfits hloaded, rfl, slotGet_clearTable, rfl, rfl, rfl, hlen, hheader,
    Memory.writeBytes_sameOutside _ _ (headerBytes s.desc), rfl, rfl, rfl, rfl, rfl, rfl, rfl, rfl, rfl, rfl⟩

end Machine

end Sys2Proof

/-! # Proofs: the round trip

Decoding what was encoded (spec 43 R150). The decoder follows the encoder pixel by pixel: where the encoder has a pending
run, the decoder is that many pixels behind. One pixel step of the encoder is answered by as many slots as the emitted ops
describe pixels. -/

namespace Sys2Proof

theorem encode_length_pos (i : Instr) : 1 ≤ (encode i).length := by
  cases i <;> simp [encode]

theorem decode_encode {i : Instr} (hw : i.wellFormed = true) : decode (encode i) = .ok (i, []) := by
  rw [← decodeInvertsEncode i [] hw, List.append_nil]

namespace Machine

/-! ## Reads of several bytes -/

theorem Memory.readBytes_succ_iff {m : Memory} {a n : Nat} {b : Byte} {bs : List Byte} :
    m.readBytes a (n + 1) = some (b :: bs) ↔ m.read a = some b ∧ m.readBytes (a + 1) n = some bs := by
  rw [Memory.readBytes]
  cases m.read a <;> cases m.readBytes (a + 1) n <;> simp

/-- Bytes beside each other are read together or one part after the other. -/
theorem Memory.readBytes_append_iff {m : Memory} {a : Nat} {xs ys : List Byte} :
    m.readBytes a (xs ++ ys).length = some (xs ++ ys) ↔
      m.readBytes a xs.length = some xs ∧ m.readBytes (a + xs.length) ys.length = some ys := by
  induction xs generalizing a with
  | nil => simp
  | cons x xs ih =>
    rw [List.cons_append, List.length_cons, List.length_cons, Memory.readBytes_succ_iff, Memory.readBytes_succ_iff, ih,
      and_assoc, Nat.add_right_comm, Nat.add_assoc]

/-- The bytes of the fetched pixel are those that stand in PIXELS (R122, R133). -/
theorem readBytes_of_fetchCur {s : State} {cur : Pixel} {c : OutChannels} (h : fetchCur s = some cur)
    (hc : c.count = s.desc.channels.toNat) : s.pixels.readBytes s.pxpos.toNat c.count = some (outBytes c cur) := by
  unfold fetchCur at h
  split at h
  next r g b hb =>
    split at h
    next hfour =>
      split at h
      next a ha =>
        cases h
        cases c with
        | three => rw [hfour] at hc; cases hc
        | four =>
          exact (Memory.readBytes_append_iff (xs := [r, g, b]) (ys := [a])).2
            ⟨hb, Memory.readBytes_succ_iff.2 ⟨ha, rfl⟩⟩
      · cases h
    next hfour =>
      cases h
      cases c with
      | three => exact hb
      | four => exact absurd (BitVec.eq_of_toNat_eq hc.symm) hfour
  · cases h

/-- `n` pixels equal to `q` stand in a space from the address `a` on, with as many bytes a pixel as `c` has. -/
def PixelRun (m : Memory) (c : OutChannels) (q : Pixel) (a n : Nat) : Prop :=
  ∀ j, j < n → m.readBytes (a + j * c.count) c.count = some (outBytes c q)

theorem PixelRun.first {m : Memory} {c : OutChannels} {q : Pixel} {a n : Nat} (h : PixelRun m c q a n) (hn : 0 < n) :
    m.readBytes a c.count = some (outBytes c q) := by
  have h0 := h 0 hn
  rwa [Nat.zero_mul, Nat.add_zero] at h0

theorem PixelRun.rest {m : Memory} {c : OutChannels} {q : Pixel} {a n : Nat} (h : PixelRun m c q a (n + 1)) :
    PixelRun m c q (a + c.count) n := by
  intro j hj
  have hnext := h (j + 1) (Nat.succ_lt_succ hj)
  rwa [Nat.succ_mul, Nat.add_comm (j * _), ← Nat.add_assoc] at hnext

theorem PixelRun.snoc {m : Memory} {c : OutChannels} {q : Pixel} {a n : Nat} (h : PixelRun m c q a n)
    (hlast : m.readBytes (a + n * c.count) c.count = some (outBytes c q)) : PixelRun m c q a (n + 1) := by
  intro j hj
  rcases Nat.lt_succ_iff_lt_or_eq.1 hj with hj | rfl
  · exact h j hj
  · exact hlast

/-! ## What the rest of an encode run keeps -/

/-- `t` is how the encode run ends that has reached `s`: the image is as before, the STREAM bytes below `P` stand, and the
padding comes after them (R145, R147). -/
structure EndOf (s t : State) : Prop where
  desc : t.desc = s.desc
  len : t.pxlen = s.pxlen
  pixels : t.pixels = s.pixels
  room : s.p.toNat + 8 ≤ t.outLen.toNat
  stream : ∀ a, a < s.p.toNat → t.stream.read a = s.stream.read a

/-- What stands in STREAM below `P` is read in the finished stream. -/
theorem EndOf.readBytes {s t : State} (h : EndOf s t) {a n : Nat} (ha : a + n ≤ s.p.toNat) :
    t.stream.readBytes a n = s.stream.readBytes a n :=
  Memory.readBytes_congr fun k _ => h.stream (a + k) (by omega)

/-- The end of a run is also the end of the run as it was before an emission, and the emitted bytes stand in it. -/
theorem EndOf.of_emit {s s' t : State} {bs : List Byte} (h : EndOf s' t) (hdesc : s'.desc = s.desc)
    (hlen : s'.pxlen = s.pxlen) (hpixels : s'.pixels = s.pixels) (hp : s'.p.toNat = s.p.toNat + bs.length)
    (hstream : s'.stream = s.stream.writeBytes s.p.toNat bs) :
    EndOf s t ∧ t.stream.readBytes s.p.toNat bs.length = some bs := by
  have hroom := h.room
  refine ⟨⟨h.desc.trans hdesc, h.len.trans hlen, h.pixels.trans hpixels, by omega, fun a ha => ?_⟩, ?_⟩
  · rw [h.stream a (by omega), hstream]
    exact Memory.read_writeBytes_outside _ _ (.inl ha)
  · rw [h.readBytes hp.ge, hstream]
    exact Memory.readBytes_writeBytes _ _ _

theorem EndOf.of_encPixel {s s' t : State} (h : EndOf s' t) (hpixel : encPixel s = .next s') : EndOf s t := by
  obtain ⟨cur, -, hroom, -, rfl⟩ := encPixel_eq_next.1 hpixel
  exact (h.of_emit (s := s) rfl rfl rfl (cursor_add hroom) rfl).1

/-- The padding step ends the run (R147). -/
theorem endOf_of_encPad {s t : State} (h : encPad s = .next t) : EndOf s t := by
  obtain ⟨hroom, rfl⟩ := encPad_eq_next.1 h
  exact
    { desc := rfl, len := rfl, pixels := rfl, room := (cursor_add hroom).ge
      stream := fun a ha => Memory.read_writeBytes_outside padBytes _ (.inl ha) }

/-! ## A decode run of a finished stream -/

/-- `u` is a decode run of the stream that the encode run ended in `t` left: the descriptor and the lengths are those of
the image, and the output so far is the image's. -/
structure Follows (t u : State) : Prop where
  desc : u.desc = t.desc
  len : u.pxlen = t.pxlen
  size : u.streamSize = t.outLen
  stream : ∀ a, a < t.outLen.toNat → u.stream.read a = t.stream.read a
  phase : if u.pxpos = u.pxlen then u.phase = .done ∧ u.outLen = u.pxlen else u.phase = .busyDec
  output : ∀ a, a < u.pxpos.toNat → u.pixels.read a = t.pixels.read a

section Follows

variable {t u v : State}

theorem Follows.busy (h : Follows t u) (hlt : u.pxpos.toNat < u.pxlen.toNat) : u.phase = .busyDec := by
  have hphase := h.phase
  rwa [if_neg fun he => hlt.ne (congrArg BitVec.toNat he)] at hphase

theorem Follows.step (h : Follows t u) (hlt : u.pxpos.toNat < u.pxlen.toNat) : step u = decSlot u :=
  step_of_busyDec (h.busy hlt)

/-- A slot whose pixel is the image's next one follows on. -/
theorem Follows.slot (h : Follows t u) (hslot : decSlot u = .next v)
    (hnext : t.pixels.readBytes u.pxpos.toNat u.outCh.count = some (outBytes u.outCh v.px)) : Follows t v := by
  obtain ⟨hlt, hstream, ⟨hlen, -, -, -, hdesc, -, hsize, -⟩, hends, hpos, hpixels, -⟩ := decSlot_spec hslot
  exact
    { desc := hdesc.trans h.desc
      len := hlen.trans h.len
      size := hsize.trans h.size
      stream := hstream ▸ h.stream
      phase := by
        rw [SlotEnds, h.busy hlt] at hends
        rw [hlen]
        split at hends
        next hfull => rwa [if_pos hfull]
        next hfull => rw [if_neg hfull]; exact hends.1
      output := fun a ha => by
        rw [hpixels, Memory.read_writeBytes, outBytes_length]
        split
        next hin =>
          obtain ⟨-, hread⟩ := Memory.readBytes_eq_some.1 hnext
          rw [← hread (a - u.pxpos.toNat) (by omega), Nat.add_sub_of_le hin.1]
        · exact h.output a (by omega) }

/-- Where the bytes of an op stand before the padding, and the output has room, the next slot executes the op. -/
theorem Follows.fetch (h : Follows t u) {i : Instr} (hw : i.wellFormed = true) (hrun : u.run = 0)
    (hfits : u.pxpos.toNat + u.outCh.count ≤ u.pxlen.toNat)
    (hbytes : t.stream.readBytes u.p.toNat (encode i).length = some (encode i))
    (hbody : u.p.toNat + (encode i).length + 8 ≤ t.outLen.toNat) :
    ∃ v, decSlot u = .next v ∧ OpSlotDone (encode i).length (opPixel i u) (opRun i u) u v := by
  have hcount := u.outCh.count_eq
  have hpos := encode_length_pos i
  have hsize := t.outLen.isLt
  have hlen := u.pxlen.isLt
  have hread : u.stream.readBytes u.p.toNat (encode i).length = some (encode i) := by
    rw [← hbytes]
    exact Memory.readBytes_congr fun k hk => h.stream _ (by omega)
  have hslot : decSlot u = exec i u :=
    decSlot_of_fetchOp (by omega) hrun (by rw [h.size]; omega) (fetchOp_of_bytes hread (decode_encode hw))
  rw [hslot]
  exact exec_completes i ⟨by omega, by unfold SlotRoom; omega⟩

end Follows

/-! ## A pixel step in three parts -/

/-- The encoder with one more pixel in its pending run (R134). -/
def State.counted (s : State) : State :=
  (s.setRun (s.run + 1)).setPxpos (s.pxpos + BitVec.ofNat 32 s.desc.channels.toNat)

/-- The encoder with its pending run flushed (R135). -/
def State.flushed (s : State) : State := (s.setRun 0).setP (s.p + BitVec.ofNat 32 1)

/-- The op the multiplexer chooses for `cur` (R136). -/
def State.chosenOp (s : State) (cur : Pixel) : Instr := muxOp s.px (slotGet s.idx (hash cur)) cur

/-- The encoder with the op for a new pixel emitted, without a pending run (R136 to R143). -/
def State.emitted (s : State) (cur : Pixel) : State :=
  (((s.setIdx (encIdx cur s)).setPx cur).setP (s.p + BitVec.ofNat 32 (encode (s.chosenOp cur)).length)).setPxpos
    (s.pxpos + BitVec.ofNat 32 s.desc.channels.toNat)

/-- Which of its parts a pixel step for `cur` consists of, the bytes it emits, and the registers it leaves in `s'`. -/
inductive PixelParts (s : State) (cur : Pixel) : List Byte → State → Prop where
  | count (hcur : cur = s.px) : PixelParts s cur [] s.counted
  | countFlush (hcur : cur = s.px) : PixelParts s cur (encode (runOp (s.run + 1))) s.counted.flushed
  | emit (hcur : cur ≠ s.px) (hrun : s.run = 0) : PixelParts s cur (encode (s.chosenOp cur)) (s.emitted cur)
  | flushEmit (hcur : cur ≠ s.px) (hrun : s.run ≠ 0) :
    PixelParts s cur (encode (runOp s.run) ++ encode (s.chosenOp cur)) (s.flushed.emitted cur)

/-- Every pixel step is made of these parts, STREAM apart (R132). -/
theorem encPixel_parts {s s' : State} (h : encPixel s = .next s') :
    ∃ cur bytes w, fetchCur s = some cur ∧ PixelParts s cur bytes w ∧ s' = w.setStream s'.stream ∧
      s'.stream = s.stream.writeBytes s.p.toNat bytes ∧ s'.p.toNat = s.p.toNat + bytes.length := by
  obtain ⟨cur, hcur, hroom, -, rfl⟩ := encPixel_eq_next.1 h
  by_cases heq : cur = s.px
  · subst heq
    by_cases hflush : flushNow s = true
    · rw [encOps_of_flush hflush, encRun_of_flush hflush, encIdx_of_equal, List.flatMap_singleton] at *
      exact ⟨_, _, _, hcur, .countFlush rfl, rfl, rfl, cursor_add hroom⟩
    · rw [encOps_of_count hflush, encRun_of_count hflush, encIdx_of_equal, List.flatMap_nil] at *
      refine ⟨_, _, _, hcur, .count rfl, ?_, rfl, cursor_add hroom⟩
      simp [State.counted, State.setStream, State.setRun, State.setPxpos]
  · rw [encRun_of_new heq]
    rw [encOps_of_new heq, List.flatMap_append, List.flatMap_singleton] at *
    by_cases hrun : s.run = 0
    · rw [if_pos hrun, List.flatMap_nil, List.nil_append] at *
      refine ⟨_, _, _, hcur, .emit heq hrun, ?_, rfl, cursor_add hroom⟩
      rw [← hrun]
      rfl
    · rw [if_neg hrun, List.flatMap_singleton] at *
      refine ⟨_, _, _, hcur, .flushEmit heq hrun, ?_, rfl, cursor_add hroom⟩
      rw [List.length_append, BitVec.ofNat_add, ← BitVec.add_assoc]
      rfl

/-! ## The decoder in step with the encoder -/

/-- The pixel stands in the slot it hashes to. -/
def Stands (q : Pixel) (s : State) : Prop := slotGet s.idx (hash q) = q

section Stands

variable {q r : Pixel} {s s' : State}

/-- A store leaves the stored pixel in its slot, and whatever stood in another slot. -/
theorem stands_of_stored (h : IndexStored r s s') (hown : hash q = hash r → q = r)
    (hother : hash q ≠ hash r → Stands q s) : Stands q s' := by
  rw [Stands, h]
  split
  next hk => exact (hown hk).symm
  next hk => exact hother hk

theorem Stands.eq_of_stored (hq : Stands q s') (h : IndexStored r s s') (hk : hash q = hash r) : q = r := by
  rw [Stands, h, if_pos hk] at hq
  exact hq.symm

theorem Stands.of_stored (hq : Stands q s') (h : IndexStored r s s') (hne : hash q ≠ hash r) : Stands q s := by
  rwa [Stands, h, if_neg hne] at hq

end Stands

/-- The decode run `u` is in step with the encode run that has reached `s` and will end in `t`: both have the same `PX`
and `P`, and the decoder is behind by the pixels of the two pending runs, all equal to `PX`. The tables need not agree
(90 C6): a pixel that stands in the encoder's table stands in the decoder's (R151), and in the slot of `PX` the encoder
has no other pixel, so that the decoder's store after a RUN op (R121) displaces none. -/
structure InStep (t s u : State) : Prop extends Follows t u where
  px : u.px = s.px
  p : u.p = s.p
  channels : u.outCh.count = s.desc.channels.toNat
  inside : s.pxpos.toNat ≤ t.pxlen.toNat
  pos : u.pxpos.toNat + (u.run.toNat + s.run.toNat) * u.outCh.count = s.pxpos.toNat
  lag : PixelRun t.pixels u.outCh s.px u.pxpos.toNat (u.run.toNat + s.run.toNat)
  table : ∀ q, Stands q s → Stands q u
  own : ∀ q, hash q = hash s.px → Stands q s → q = s.px

section InStep

variable {t s s' u v : State}

/-- A decoder that is behind has output to fill. -/
theorem InStep.next_le (h : InStep t s u) (hlag : 0 < u.run.toNat + s.run.toNat) :
    u.pxpos.toNat + u.outCh.count ≤ u.pxlen.toNat := by
  have hpos := h.pos
  have hinside := h.inside
  have hmul := Nat.le_mul_of_pos_left u.outCh.count hlag
  rw [h.len]
  omega

/-- A slot that repeats `PX` brings the decoder one pixel nearer; `s'` is `s`, or `s` with the pending run flushed. -/
theorem InStep.catchOne (h : InStep t s u) (hslot : decSlot u = .next v) (hpx : v.px = s.px) (hp : v.p = s'.p)
    (hrun : u.run.toNat + s.run.toNat = v.run.toNat + s'.run.toNat + 1) (htable : ∀ q, Stands q s → Stands q v)
    (hpx' : s'.px = s.px) (hidx' : s'.idx = s.idx) (hpos' : s'.pxpos = s.pxpos)
    (hdesc' : s'.desc = s.desc) : InStep t s' v := by
  obtain ⟨-, -, ⟨-, hch, -⟩, -, hpos, -⟩ := decSlot_spec hslot
  have hlag := h.lag
  have hposu := h.pos
  rw [hrun] at hlag hposu
  rw [Nat.succ_mul] at hposu
  have hfollows : Follows t v := h.toFollows.slot hslot (hpx ▸ hlag.first (Nat.succ_pos _))
  exact
    { hfollows with
      px := hpx.trans hpx'.symm
      p := hp
      channels := by rw [hch, hdesc']; exact h.channels
      inside := hpos' ▸ h.inside
      pos := by rw [hpos', hch, hpos]; omega
      lag := by rw [hch, hpos, hpx']; exact hlag.rest
      table := fun q hq => htable q (by rwa [Stands, hidx'] at hq)
      own := fun q hk hq => (h.own q (hpx' ▸ hk) (by rwa [Stands, hidx'] at hq)).trans hpx'.symm }

/-- A run-repeat slot keeps step (R114). -/
theorem InStep.repeat (h : InStep t s u) (hrun : u.run ≠ 0) :
    ∃ v, step u = .next v ∧ InStep t s v ∧ v.run.toNat + 1 = u.run.toNat := by
  have hle := h.next_le (by bv_omega)
  have hcount := u.outCh.count_eq
  have hlen := u.pxlen.isLt
  have hroom : SlotRoom u := by unfold SlotRoom; omega
  obtain ⟨v, hv⟩ := outputSlot_completes (s := u.setRun (u.run - 1)) hroom
  obtain ⟨hpx, hrunv, hidx, hp, -⟩ := outputSlot_spec hv
  have hslot : decSlot u = .next v := (decSlot_of_run (by omega) hrun).trans hv
  have hcounted : v.run.toNat + 1 = u.run.toNat := by
    rw [hrunv, State.setRun_run]
    bv_omega
  refine ⟨v, (h.step (by omega)).trans hslot, ?_, hcounted⟩
  refine h.catchOne hslot (hpx.trans h.px) (hp.trans h.p) (by omega) (fun q hq => ?_) rfl rfl rfl rfl
  rw [Stands, hidx]
  exact h.table q hq

/-- The decoder works off its own pending run. -/
theorem InStep.catchUp (n : Nat) (h : InStep t s u) (hn : u.run.toNat = n) :
    ∃ v, Sys2Proof.core.run n u = .next v ∧ InStep t s v ∧ v.run = 0 := by
  induction n generalizing u with
  | zero => exact ⟨u, rfl, h, BitVec.eq_of_toNat_eq hn⟩
  | succ n ih =>
    obtain ⟨w, hstep, hw, hrun⟩ := h.repeat (by rintro h0; rw [h0] at hn; cases hn)
    obtain ⟨v, hv, hdone⟩ := ih hw (by omega)
    exact ⟨v, (core_run_succ hstep).trans hv, hdone⟩

/-- STREAM is not part of the relation: the decoder reads the finished stream. -/
theorem InStep.setStream (h : InStep t s u) (m : Memory) : InStep t (s.setStream m) u :=
  { h.toFollows with
    px := h.px, p := h.p, channels := h.channels, inside := h.inside, pos := h.pos, lag := h.lag, table := h.table
    own := h.own }

/-- The encoder counts a pixel equal to `PX` (R134): the decoder waits. -/
theorem InStep.counted (h : InStep t s u) (hrun : s.run.toNat ≤ 61)
    (hnext : t.pixels.readBytes s.pxpos.toNat u.outCh.count = some (outBytes u.outCh s.px))
    (hfits : s.pxpos.toNat + s.desc.channels.toNat ≤ t.pxlen.toNat) : InStep t s.counted u := by
  have hpos := h.pos
  have hchannels := h.channels
  have hlen := t.pxlen.isLt
  have hpos' : s.counted.pxpos.toNat = s.pxpos.toNat + s.desc.channels.toNat := cursor_add (by omega)
  have hcount : u.run.toNat + s.counted.run.toNat = u.run.toNat + s.run.toNat + 1 := by
    change u.run.toNat + (s.run + 1).toNat = _
    bv_omega
  exact
    { h.toFollows with
      px := h.px
      p := h.p
      channels := hchannels
      inside := hpos'.trans_le hfits
      pos := by rw [hcount, Nat.succ_mul]; omega
      lag := by rw [hcount]; exact h.lag.snoc (by rw [hpos]; exact hnext)
      table := h.table
      own := h.own }

/-- The encoder flushes its pending run (R135): the decoder fetches the RUN op and works it off. -/
theorem InStep.flushed (h : InStep t s u) (hu : u.run = 0) (hrun : s.run ≠ 0) (hmax : s.run.toNat ≤ 62)
    (hbytes : t.stream.readBytes s.p.toNat 1 = some (encode (runOp s.run)))
    (hbody : s.p.toNat + 1 + 8 ≤ t.outLen.toNat) :
    ∃ v, Sys2Proof.core.run s.run.toNat u = .next v ∧ InStep t s.flushed v ∧ v.run = 0 := by
  have hle := h.next_le (by bv_omega)
  have hcount := u.outCh.count_eq
  have hsize := t.outLen.isLt
  obtain ⟨w, hslot, hpx, hrunw, hp, hstored, -⟩ :=
    h.toFollows.fetch (runOp_wellFormed hrun hmax) hu hle (by rw [h.p]; exact hbytes) (by rw [h.p]; exact hbody)
  change w.p.toNat = u.p.toNat + 1 at hp
  have hleft : s.run.toNat = w.run.toNat + 1 := by
    rw [hrunw]
    change s.run.toNat = (s.run - 1).toNat + 1
    bv_omega
  have hw : InStep t s.flushed w := by
    refine h.catchOne hslot (hpx.trans h.px) (BitVec.eq_of_toNat_eq ?_) ?_ (fun q hq => ?_) rfl rfl rfl rfl
    · rw [hp, h.p]
      exact (cursor_add (by omega)).symm
    · rw [hu, hleft]
      exact Nat.zero_add _
    · have hpx : opPixel (runOp s.run) u = s.px := h.px
      rw [hpx] at hstored
      exact stands_of_stored hstored (fun hk => h.own q hk hq) fun _ => h.table q hq
  obtain ⟨v, hv, hdone⟩ := hw.catchUp w.run.toNat rfl
  rw [hleft]
  exact ⟨v, (core_run_succ ((h.step (by omega)).trans hslot)).trans hv, hdone⟩

/-- The encoder emits the multiplexer's op for a new pixel (R136): the decoder executes it to the same pixel (R95). -/
theorem InStep.emitted {cur : Pixel} (h : InStep t s u) (hu : u.run = 0) (hrun : s.run = 0) (hcur : cur ≠ s.px)
    (hnext : t.pixels.readBytes s.pxpos.toNat u.outCh.count = some (outBytes u.outCh cur))
    (hfits : s.pxpos.toNat + s.desc.channels.toNat ≤ t.pxlen.toNat)
    (hbytes : t.stream.readBytes s.p.toNat (encode (s.chosenOp cur)).length = some (encode (s.chosenOp cur)))
    (hbody : s.p.toNat + (encode (s.chosenOp cur)).length + 8 ≤ t.outLen.toNat) :
    ∃ v, step u = .next v ∧ InStep t (s.emitted cur) v ∧ v.run = 0 := by
  have hcount := u.outCh.count_eq
  have hchannels := h.channels
  have hlen := t.pxlen.isLt
  have hsize := t.outLen.isLt
  have hpos : u.pxpos.toNat = s.pxpos.toNat := by
    rw [← h.pos, hu, hrun]
    simp
  have hle : u.pxpos.toNat + u.outCh.count ≤ u.pxlen.toNat := by rwa [hpos, h.len, hchannels]
  have hstored' : IndexStored cur s (s.emitted cur) := slotGet_encIdx_of_new hcur
  have hp' : (s.emitted cur).p.toNat = s.p.toNat + (encode (s.chosenOp cur)).length := cursor_add (by omega)
  have hpos' : (s.emitted cur).pxpos.toNat = s.pxpos.toNat + s.desc.channels.toNat := cursor_add (by omega)
  obtain ⟨v, hslot, hpx, hrunv, hp, hstored, -⟩ :=
    h.toFollows.fetch (i := s.chosenOp cur) (muxOp_wellFormed _ _ _) hu hle (by rw [h.p]; exact hbytes)
      (by rw [h.p]; exact hbody)
  have hpixel : opPixel (s.chosenOp cur) u = cur := by
    rw [State.chosenOp, ← h.px]
    exact opPixel_muxOp (h.table cur)
  rw [hpixel] at hpx hstored
  rw [State.chosenOp, opRun_muxOp, hu] at hrunv
  obtain ⟨-, -, ⟨-, hch, -⟩, -, hposv, -⟩ := decSlot_spec hslot
  have hrun' : (s.emitted cur).run = 0 := hrun
  have hzero : v.run.toNat + (s.emitted cur).run.toNat = 0 := by rw [hrunv, hrun']; rfl
  refine ⟨v, (h.step (by omega)).trans hslot, ?_, hrunv⟩
  exact
    { h.toFollows.slot hslot (by rw [hpos, hpx]; exact hnext) with
      px := hpx
      p := BitVec.eq_of_toNat_eq (by rw [hp, hp', h.p])
      channels := by rw [hch]; exact hchannels
      inside := hpos'.trans_le hfits
      pos := by rw [hzero, Nat.zero_mul, hposv, hpos, hpos', hchannels]; rfl
      lag := by rw [hzero]; nofun
      table := fun q hq =>
        stands_of_stored hstored (hq.eq_of_stored hstored') fun hne => h.table q (hq.of_stored hstored' hne)
      own := fun q hk hq => hq.eq_of_stored hstored' hk }

/-- One pixel step of the encoder, answered by as many slots as leave the runs and the new pixel accounted for. -/
theorem InStep.pixel (h : InStep t s u) (hu : u.run = 0) (hi : EncodeInv s) (hmax : s.run.toNat ≤ 61)
    (hlt : s.pxpos.toNat < s.pxlen.toNat) (hpixel : encPixel s = .next s') (hend : EndOf s' t) :
    ∃ j v, Sys2Proof.core.run j u = .next v ∧ InStep t s' v ∧ v.run = 0 ∧ j + s'.run.toNat = s.run.toNat + 1 := by
  obtain ⟨⟨hlen, -, -, -, hdesc, -⟩, hpixels⟩ := encStep_frame ((encStep_of_lt hlt).trans hpixel)
  obtain ⟨cur, bytes, w, hfetch, hparts, hw, hstream, hp⟩ := encPixel_parts hpixel
  obtain ⟨he, hbytes⟩ := hend.of_emit hdesc hlen hpixels hp hstream
  have hbody : s.p.toNat + bytes.length + 8 ≤ t.outLen.toNat := hp ▸ hend.room
  have hfits : s.pxpos.toNat + s.desc.channels.toNat ≤ t.pxlen.toNat :=
    he.len ▸ next_pixel_le hi.len hi.aligned hlt
  have hnext (c : OutChannels) (hc : c.count = s.desc.channels.toNat) :
      t.pixels.readBytes s.pxpos.toNat c.count = some (outBytes c cur) := he.pixels ▸ readBytes_of_fetchCur hfetch hc
  suffices hdec : ∃ j v, Sys2Proof.core.run j u = .next v ∧ InStep t w v ∧ v.run = 0 ∧
      j + w.run.toNat = s.run.toNat + 1 by
    obtain ⟨j, v, hrun, hv, hdone⟩ := hdec
    rw [hw]
    exact ⟨j, v, hrun, hv.setStream _, hdone⟩
  have hone : (s.run + 1).toNat = s.run.toNat + 1 := by bv_omega
  cases hparts with
  | count hcur =>
    subst hcur
    exact ⟨0, u, rfl, h.counted hmax (hnext _ h.channels) hfits, hu, (Nat.zero_add _).trans hone⟩
  | countFlush hcur =>
    subst hcur
    have hrun : s.run + 1 ≠ 0 := by rintro h0; rw [h0] at hone; cases hone
    obtain ⟨v, hv, hstep, hvrun⟩ := (h.counted hmax (hnext _ h.channels) hfits).flushed hu hrun
      (hone.trans_le (Nat.succ_le_succ hmax)) hbytes hbody
    exact ⟨_, v, hv, hstep, hvrun, hone⟩
  | emit hcur hrun =>
    obtain ⟨v, hv, hstep, hvrun⟩ := h.emitted hu hrun hcur (hnext _ h.channels) hfits hbytes hbody
    exact ⟨1, v, core_run_succ hv, hstep, hvrun, Nat.add_comm _ _⟩
  | flushEmit hcur hrun =>
    obtain ⟨hflush, hop⟩ := Memory.readBytes_append_iff.1 hbytes
    rw [List.length_append] at hbody
    change s.p.toNat + (1 + _) + 8 ≤ _ at hbody
    have hsize := t.outLen.isLt
    have hpf : s.flushed.p.toNat = s.p.toNat + 1 := cursor_add (by omega)
    obtain ⟨x, hx, hflushed, hxrun⟩ := h.flushed hu hrun (hmax.trans (by decide)) hflush (by omega)
    obtain ⟨v, hv, hstep, hvrun⟩ := hflushed.emitted (cur := cur) hxrun rfl hcur (hnext _ hflushed.channels) hfits
      (by rw [hpf]; exact hop) (by rw [hpf, Nat.add_assoc s.p.toNat]; exact hbody)
    exact ⟨s.run.toNat + 1, v, (core_run_add hx).trans (core_run_succ hv), hstep, hvrun, rfl⟩

end InStep

/-! ## The round trip (R150) -/

/-- By induction on the pixels to come: the encode run ends, and a decode run in step with it then restores the image. -/
theorem encode_then_decode (k : Nat) (s : State) (hi : RunInv s) (hphase : s.phase = .busyEnc)
    (hk : s.pxpos.toNat + k * s.desc.channels.toNat = s.pxlen.toNat) :
    ∃ t, Sys2Proof.core.run (k + 1) s = .next t ∧ t.phase = .done ∧ EndOf s t ∧
      ∀ u, InStep t s u → u.run = 0 →
        ∃ v, Sys2Proof.core.run (s.run.toNat + k) u = .next v ∧ Follows t v ∧ v.pxpos = v.pxlen := by
  induction k generalizing s with
  | zero =>
    rw [Nat.zero_mul, Nat.add_zero] at hk
    have ⟨_, _, _, _, henc⟩ := hi
    obtain ⟨hrun, -⟩ := (henc hphase).flushed hk
    obtain ⟨t, hstep⟩ := busyStepCannotFail s hi (by rw [hphase]; rfl)
    have hpad : encPad s = .next t := by
      rw [← encStep_of_end (BitVec.eq_of_toNat_eq hk), ← step_of_busyEnc hphase, hstep]
    have hend := endOf_of_encPad hpad
    have hdone : t.phase = .done := by
      obtain ⟨-, rfl⟩ := encPad_eq_next.1 hpad
      rfl
    refine ⟨t, core_run_succ hstep, hdone, hend, fun u hu hurun => ⟨u, ?_, hu.toFollows, BitVec.eq_of_toNat_eq ?_⟩⟩
    · rw [hrun]
      rfl
    · rw [hu.len, hend.len, ← hk, ← hu.pos, hurun, hrun]
      simp
  | succ k ih =>
    rw [Nat.succ_mul] at hk
    have ⟨_, hmax, _, _, henc⟩ := hi
    have hinv := henc hphase
    have hchannels := validDesc_channels hinv.valid
    have hlt : s.pxpos.toNat < s.pxlen.toNat := by omega
    obtain ⟨s', hstep⟩ := busyStepCannotFail s hi (by rw [hphase]; rfl)
    have hpixel : encPixel s = .next s' := (step_of_pixel hphase hlt).symm.trans hstep
    have hi' := stepKeepsTheRunInvariant s s' hi hstep
    have hregs : s'.phase = .busyEnc ∧ s'.pxpos.toNat + k * s'.desc.channels.toNat = s'.pxlen.toNat := by
      obtain ⟨cur, -, -, hroom, rfl⟩ := encPixel_eq_next.1 hpixel
      have hpos := cursor_add hroom
      exact ⟨hphase, by dsimp only; omega⟩
    obtain ⟨hphase', hk'⟩ := hregs
    obtain ⟨t, ht, hdone, hend, hdecode⟩ := ih s' hi' hphase' hk'
    refine ⟨t, (core_run_succ hstep).trans ht, hdone, hend.of_encPixel hpixel, fun u hu hurun => ?_⟩
    obtain ⟨j, x, hx, hxstep, hxrun, hj⟩ := hu.pixel hurun hinv hmax hlt hpixel hend
    obtain ⟨v, hv, hfollows, hfull⟩ := hdecode x hxstep hxrun
    have hsteps : s.run.toNat + (k + 1) = j + (s'.run.toNat + k) := by omega
    rw [hsteps]
    exact ⟨v, (core_run_add hx).trans hv, hfollows, hfull⟩

/-- Right after both START steps the two runs are in step: no pixel has been processed, and the tables are clear. -/
theorem inStep_begin {s u t : State} (hend : EndOf (beginEncode s) t) (hvalid : validDesc s.desc = true)
    (hcount : (outChannels u.reqChannels s.desc.channels).count = s.desc.channels.toNat)
    (hsize : u.streamSize = t.outLen) (hstream : ∀ a, a < t.outLen.toNat → u.stream.read a = t.stream.read a) :
    InStep t (beginEncode s) (beginDecode s.desc u) := by
  obtain ⟨hpos, hlen⟩ := pxlen_toNat hvalid (validDesc_channels hvalid)
  have hempty (q : Pixel) (hq : Stands q (beginEncode s)) : q = zeroPixel := hq.symm.trans (slotGet_clearTable _)
  have hpxlen : (beginDecode s.desc u).pxlen = (beginEncode s).pxlen := by
    rw [beginDecode, hcount]
    rfl
  exact
    { desc := hend.desc.symm
      len := hpxlen.trans hend.len.symm
      size := hsize
      stream := hstream
      phase := by
        rw [if_neg]
        · rfl
        · rw [hpxlen]
          exact fun he => absurd (congrArg BitVec.toNat he) (hlen.trans_ne hpos.ne').symm
      output := nofun
      px := rfl
      p := rfl
      channels := hcount
      inside := Nat.zero_le _
      pos := by
        change 0 + (0 + 0) * _ = 0
        rw [Nat.zero_mul]
      lag := nofun
      table := fun q hq => hq
      own := fun q hk hq => by
        rw [hempty q hq] at hk
        change hash zeroPixel = hash baseline at hk
        exact absurd hk (by decide) }

/-- A START_DECODE step that passes every check begins a decode run (R162). -/
theorem step_beginDecode {s : State} {d : Desc} (hq : s.phase.busy = false) (hcmd : s.cmd = 2)
    (hreq : s.reqChannels = 0 ∨ s.reqChannels = 3 ∨ s.reqChannels = 4) (hsize : 22 ≤ s.streamSize.toNat)
    (hloaded : s.stream.holdsExactly s.streamSize.toNat = true) (hread : readHeader s.stream = some (magicWord, d))
    (hvalid : validDesc d = true)
    (hfits : d.pixelCount * (outChannels s.reqChannels d.channels).count ≤ s.outCap.toNat) :
    step s = .next (beginDecode d (s.setCmd 0)) := by
  rw [step_of_quiescent hq, command, if_neg (by rw [hcmd]; decide), if_pos hcmd]
  exact startDecode_begins ((reqChannelsOk_iff _).2 hreq) hsize hloaded hread hvalid hfits

/-- The header that START_ENCODE wrote is read from a copy of the finished stream (R107). -/
theorem readHeader_of_endOf {s t : State} {m : Memory} (hend : EndOf (beginEncode s) t)
    (hstream : ∀ a, a < t.outLen.toNat → m.read a = t.stream.read a) : readHeader m = some (magicWord, s.desc) := by
  have hroom : 14 + 8 ≤ t.outLen.toNat := hend.room
  refine readHeader_of_bytes ?_
  calc m.readBytes 0 14
      = t.stream.readBytes 0 14 := Memory.readBytes_congr fun k hk => hstream (0 + k) (by omega)
    _ = (writeHeader s.desc s.stream).readBytes 0 14 := hend.readBytes (le_refl 14)
    _ = some (headerBytes s.desc) := writeHeader_readBytes _ _

/-- Settles O44: the two launches begin in step, and `encode_then_decode` brings both runs to their end. -/
theorem roundTripLaw : Obligations.RoundTripLaw := by
  intro s hi hq hcmd hvalid hfits hloaded
  have hbegin := step_beginEncode hq hcmd hvalid hfits hloaded
  obtain ⟨-, hlen⟩ := pxlen_toNat hvalid (validDesc_channels hvalid)
  obtain ⟨t, ht, hdone, hend, hdecode⟩ := encode_then_decode s.desc.pixelCount _
    (stepKeepsTheRunInvariant _ _ hi hbegin) rfl ((Nat.zero_add _).trans hlen.symm)
  refine ⟨t, (core_run_succ hbegin).trans ht, hdone, fun u huq hucmd hreq hsize huloaded hstream hucap => ?_⟩
  obtain ⟨-, -, hchannels, -⟩ := (validDesc_iff s.desc).1 hvalid
  have hreq' : u.reqChannels = 0 ∨ u.reqChannels = 3 ∨ u.reqChannels = 4 := hreq.imp_right fun h => by rwa [h]
  have hcount : (outChannels u.reqChannels s.desc.channels).count = s.desc.channels.toNat := by
    rw [outChannels_count hreq' hchannels]
    rcases hreq with h | h <;> simp [h]
  have hroom : 22 ≤ u.streamSize.toNat := hsize ▸ hend.room
  have hubegin := step_beginDecode huq hucmd hreq' hroom huloaded (readHeader_of_endOf hend hstream) hvalid
    (hcount ▸ hucap)
  obtain ⟨v, hv, hfollows, hfull⟩ := hdecode _ (inStep_begin (u := u.setCmd 0) hend hvalid hcount hsize hstream) rfl
  rw [show (beginEncode (s.setCmd 0)).run.toNat + s.desc.pixelCount = s.desc.pixelCount from Nat.zero_add _] at hv
  have hended := hfollows.phase
  rw [if_pos hfull] at hended
  obtain ⟨hvdone, hout⟩ := hended
  refine ⟨v, (core_run_succ hubegin).trans hv, hvdone, hfollows.desc.trans hend.desc, ?_, fun a ha => ?_⟩
  · rw [hout, hfollows.len, hend.len]
    exact hlen
  · rw [hout, ← hfull] at ha
    rw [hfollows.output a ha, hend.pixels]
    rfl

end Machine

end Sys2Proof

/-! # Proofs: commands and phases

The failing checks of the two START steps (spec 44 R162, R164; 60 R172 to R177), the moves of `PHASE` (44 R161), and the
host's writes of `CMD` and of the other registers against the invariants (44 R160, R166, R168). -/

namespace Sys2Proof.Machine

/-! ## A quiescent phase (R161, R166) -/

theorem step_of_cmd_one {s : State} (hq : s.phase.busy = false) (hcmd : s.cmd = 1) :
    step s = startEncode (s.setCmd 0) := by
  rw [step_of_quiescent hq, command, if_pos hcmd]

theorem step_of_cmd_two {s : State} (hq : s.phase.busy = false) (hcmd : s.cmd = 2) :
    step s = startDecode (s.setCmd 0) := by
  rw [step_of_quiescent hq, command, if_neg (by rw [hcmd]; decide), if_pos hcmd]

/-- Settles O32: with neither command pending, `command` answers the state itself. -/
theorem quiescentPhaseWaitsForACommand : Obligations.QuiescentPhaseWaitsForACommand := by
  intro s hq hone htwo
  rw [step_of_quiescent hq, command, if_neg hone, if_neg htwo]

/-! ## The failing checks of START_ENCODE (R164) -/

theorem startEncode_of_invalid {s : State} (hvalid : validDesc s.desc = false) :
    startEncode s = .next (s.raise .invalidArgument) :=
  if_pos hvalid

theorem startEncode_of_small {s : State} (hvalid : validDesc s.desc = true)
    (hsmall : s.outCap.toNat < s.desc.encodeNeed) : startEncode s = .next (s.raise .outOfMemory) := by
  rw [startEncode, if_neg (by simp [hvalid]), if_pos hsmall]

/-- Settles O29: one lemma for each failing check, after the checks before it have passed. -/
theorem startEncodeReportsTheFirstFailure : Obligations.StartEncodeReportsTheFirstFailure := by
  intro s hq hcmd
  rw [step_of_cmd_one hq hcmd]
  exact ⟨startEncode_of_invalid (s := s.setCmd 0), startEncode_of_small (s := s.setCmd 0)⟩

/-! ## The failing checks of START_DECODE (R162) -/

section StartDecode

variable {s : State}

theorem startDecode_of_badChannels (hreq : reqChannelsOk s.reqChannels = false) :
    startDecode s = .next (s.raise .invalidArgument) :=
  if_pos hreq

theorem startDecode_of_short (hreq : reqChannelsOk s.reqChannels = true) (hsize : s.streamSize.toNat < 22) :
    startDecode s = .next (s.raise .truncated) := by
  rw [startDecode, if_neg (by simp [hreq]), if_pos hsize]

/-- With the stream loaded, what remains are the checks on the header that stands there (R162, R163). -/
theorem startDecode_of_header {magic : Word} {d : Desc} (hreq : reqChannelsOk s.reqChannels = true)
    (hsize : 22 ≤ s.streamSize.toNat) (hloaded : s.stream.holdsExactly s.streamSize.toNat = true)
    (hread : readHeader s.stream = some (magic, d)) : startDecode s = .next (checkHeader magic d s) := by
  rw [startDecode, if_neg (by simp [hreq]), if_neg (by omega), if_neg (by simp [hloaded]), hread]

theorem checkHeader_of_invalid {magic : Word} {d : Desc} (h : magic ≠ magicWord ∨ validDesc d = false) (s : State) :
    checkHeader magic d s = s.raise .invalidHeader :=
  if_pos h

theorem checkHeader_of_small {d : Desc} (hvalid : validDesc d = true)
    (hsmall : s.outCap.toNat < d.pixelCount * (outChannels s.reqChannels d.channels).count) :
    checkHeader magicWord d s = s.raise .outOfMemory := by
  rw [checkHeader, if_neg (by simp [hvalid]), if_pos hsmall]

end StartDecode

/-- Settles O27: one lemma for each failing check, after the checks before it have passed; `OUT_CH` is a number by
`outChannels_count`. -/
theorem startDecodeReportsTheFirstFailure : Obligations.StartDecodeReportsTheFirstFailure := by
  intro s hq hcmd
  rw [step_of_cmd_two hq hcmd]
  refine ⟨fun hbad => ?_, fun hreq => ⟨fun hsize => ?_, fun hsize hloaded magic d hread => ?_⟩⟩
  · exact startDecode_of_badChannels (s := s.setCmd 0) (Bool.eq_false_iff.2 fun h => by
      rcases (reqChannelsOk_iff _).1 h with h | h | h
      exacts [hbad.1 h, hbad.2.1 h, hbad.2.2 h])
  · exact startDecode_of_short (s := s.setCmd 0) ((reqChannelsOk_iff _).2 hreq) hsize
  · rw [startDecode_of_header (s := s.setCmd 0) ((reqChannelsOk_iff _).2 hreq) hsize hloaded hread]
    refine ⟨fun hbad => congrArg _ (checkHeader_of_invalid hbad _), ?_⟩
    rintro rfl hvalid hsmall
    obtain ⟨-, -, hchannels, -⟩ := (validDesc_iff d).1 hvalid
    rw [← outChannels_count hreq hchannels] at hsmall
    exact congrArg _ (checkHeader_of_small (s := s.setCmd 0) hvalid hsmall)

/-! ## The moves of `PHASE` (R161) -/

theorem startEncode_phase {s t : State} (h : startEncode s = .next t) : t.phase = .busyEnc ∨ t.phase = .error := by
  rcases startEncode_cases h with ⟨e, -, rfl⟩ | ⟨-, -, -, rfl⟩
  · exact .inr rfl
  · exact .inl rfl

theorem startDecode_phase {s t : State} (h : startDecode s = .next t) : t.phase = .busyDec ∨ t.phase = .error := by
  rcases startDecode_cases h with ⟨e, -, rfl⟩ | ⟨d, -, -, -, -, -, -, rfl⟩
  · exact .inr rfl
  · exact .inl rfl

theorem encPixel_phase {s t : State} (h : encPixel s = .next t) : t.phase = s.phase := by
  obtain ⟨cur, -, -, -, rfl⟩ := encPixel_eq_next.1 h
  rfl

theorem encPad_phase {s t : State} (h : encPad s = .next t) : t.phase = .done := by
  obtain ⟨-, rfl⟩ := encPad_eq_next.1 h
  rfl

/-- Settles O33: row by row, the step is the START step, the wait, the pixel step, the padding step or the slot. -/
theorem phaseMovesAsInTheTable : Obligations.PhaseMovesAsInTheTable := by
  intro s t h
  refine ⟨fun hq hcmd => ?_, fun hq hcmd => ?_, fun hq hone htwo => ?_, fun hp hlt => ?_, fun hp hend => ?_,
    fun hp => ?_⟩
  · exact startEncode_phase (step_of_cmd_one hq hcmd ▸ h)
  · exact startDecode_phase (step_of_cmd_two hq hcmd ▸ h)
  · rw [quiescentPhaseWaitsForACommand s hq hone htwo] at h
    cases h
    rfl
  · rw [step_of_pixel hp hlt] at h
    exact (encPixel_phase h).trans hp
  · rw [step_of_busyEnc hp, encStep_of_end (BitVec.eq_of_toNat_eq hend)] at h
    exact encPad_phase h
  · rw [step_of_busyDec hp] at h
    obtain ⟨hlt, -⟩ := decSlot_spec h
    obtain ⟨-, hphase⟩ := decSlot_err_phase h
    exact ⟨hlt, hp ▸ hphase⟩

/-! ## Writes of `CMD` (R160, R166) -/

theorem writeCmd_of_hostMayMove {v : BitVec 2} {s : State} (hv : v = 1 ∨ v = 2) (hm : hostMayMove s = true) :
    writeCmd v s = s.setCmd v := by
  rw [writeCmd, if_pos (by simpa [hm] using hv)]

theorem writeCmd_of_noCommand {v : BitVec 2} (hone : v ≠ 1) (htwo : v ≠ 2) (s : State) : writeCmd v s = s := by
  rw [writeCmd, if_neg (by simpa using fun _ => ⟨hone, htwo⟩)]

theorem writeCmd_of_not_hostMayMove (v : BitVec 2) {s : State} (hm : hostMayMove s = false) : writeCmd v s = s := by
  rw [writeCmd, if_neg (by simp [hm])]

/-- Settles O58: the write is `writeCmd`, which latches a 1 or 2 when the host may move and does nothing else. -/
theorem commandWriteStartsOrDoesNothing : Obligations.CommandWriteStartsOrDoesNothing := by
  refine fun v s => ⟨fun hv hq hcmd => ?_, fun hv => ?_, fun hbusy => ?_⟩
  · exact congrArg _ (writeCmd_of_hostMayMove hv ((hostMayMove_iff s).2 ⟨hq, hcmd⟩))
  · have hne : v ≠ 1 ∧ v ≠ 2 := by rcases hv with rfl | rfl <;> decide
    exact congrArg _ (writeCmd_of_noCommand hne.1 hne.2 s)
  · exact congrArg _ (writeCmd_of_not_hostMayMove v ((hostMayMove_false_iff s).2 hbusy))

/-! ## Host writes and the invariants (R166, R168) -/

/-- What no host write touches: `PHASE` and `ERR`, which are read only (R30), and the working registers
`RUN` and `IDX`. -/
theorem applyWrite_frame (w : HostWrite) (s : State) :
    (applyWrite w s).phase = s.phase ∧ (applyWrite w s).err = s.err ∧ (applyWrite w s).run = s.run ∧
      (applyWrite w s).idx = s.idx := by
  cases w with
  | cmd v =>
    rcases writeCmd_cases v s with h | ⟨-, -, h⟩ <;> rw [applyWrite, h] <;> exact ⟨rfl, rfl, rfl, rfl⟩
  | _ => exact ⟨rfl, rfl, rfl, rfl⟩

/-- A byte is loaded at a 32-bit address, and a fresh buffer lists nothing (R40). -/
theorem applyWrite_keeps_memoryInv (w : HostWrite) {s : State} (hi : MemoryInv s) : MemoryInv (applyWrite w s) := by
  obtain ⟨hstream, hpixels⟩ := hi
  have hempty : Memory.wf [] := ⟨.nil, nofun⟩
  cases w with
  | cmd v => rcases writeCmd_cases v s with h | ⟨-, -, h⟩ <;> rw [applyWrite, h] <;> exact ⟨hstream, hpixels⟩
  | streamByte a v => exact ⟨Memory.write_wf hstream a.isLt, hpixels⟩
  | pixelByte a v => exact ⟨hstream, Memory.write_wf hpixels a.isLt⟩
  | freshStream => exact ⟨hempty, hpixels⟩
  | freshPixels => exact ⟨hstream, hempty⟩
  | _ => exact ⟨hstream, hpixels⟩

/-- A write that is admitted finds no run to disturb: the invariants of the two runs ask nothing of a
quiescent phase. -/
theorem applyWrite_keeps_runInv (w : HostWrite) {s : State} (hq : s.phase.busy = false) (hi : RunInv s) :
    RunInv (applyWrite w s) := by
  obtain ⟨hmem, hrun, herr, -, -⟩ := hi
  obtain ⟨hphase', herr', hrun', -⟩ := applyWrite_frame w s
  refine ⟨applyWrite_keeps_memoryInv w hmem, ?_, ?_, fun hp => ?_, fun hp => ?_⟩
  · rwa [RunCounterInv, hrun']
  · rwa [ErrInv, herr', hphase']
  · rw [← hphase', hp] at hq
    cases hq
  · rw [← hphase', hp] at hq
    cases hq

theorem applyWrite_keeps_slotInv (w : HostWrite) {s : State} (hi : SlotInv s) : SlotInv (applyWrite w s) := by
  obtain ⟨-, -, -, hidx⟩ := applyWrite_frame w s
  rwa [SlotInv, hidx]

/-- An answered write is admitted by a block that waits, or it is a write of `CMD` without effect (R166, R168). -/
theorem hostWrite_effect {w : HostWrite} {s t : State} (h : hostWrite w s = .next t) :
    t = s ∨ (s.phase.busy = false ∧ t = applyWrite w s) := by
  rcases hostWrite_cases h with ⟨v, rfl, rfl⟩ | ⟨hm, rfl⟩
  · rcases writeCmd_cases v s with hsame | ⟨hm, -, -⟩
    · exact .inl hsame
    · exact .inr ⟨((hostMayMove_iff s).1 hm).1, rfl⟩
  · exact .inr ⟨((hostMayMove_iff s).1 hm).1, rfl⟩

/-- Settles O45: an answered write changes nothing, or it is admitted in a quiescent phase and keeps both invariants. -/
theorem hostWritesKeepTheInvariants : Obligations.HostWritesKeepTheInvariants := by
  intro w s t h
  rcases hostWrite_effect h with rfl | ⟨hq, rfl⟩
  · exact ⟨id, id, fun _ => rfl⟩
  · exact ⟨applyWrite_keeps_runInv w hq, applyWrite_keeps_slotInv w, fun hbusy => absurd (hq.symm.trans hbusy) nofun⟩

end Sys2Proof.Machine

/-! # Proofs: reset, refused launches and the measure of a run

The state after reset against the invariants (spec 70 R190, 10 R39), the launches whose input space is not loaded exactly
(70 R193, 20 R51), and the number `stepsLeft`, which every busy step makes smaller (70 R206). -/

namespace Sys2Proof.Machine

/-! ## Hardware reset (R39, R190) -/

/-- Settles O46: each value is the one the definition writes. -/
theorem hardwareResetGivesIdle : Obligations.HardwareResetGivesIdle :=
  ⟨⟨rfl, rfl, rfl⟩, fun _ => ⟨rfl, rfl, rfl, rfl⟩⟩

theorem runInv_reset : RunInv State.reset := by
  refine ⟨⟨⟨.nil, nofun⟩, .nil, nofun⟩, ?_, ?_, nofun, nofun⟩
  · exact Nat.zero_le 61
  · exact iff_of_true rfl nofun

theorem slotInv_reset : SlotInv State.reset := fun k => .inl (slotGet_clearTable k)

/-- Settles O40: no run is under way, both spaces list nothing, and the table is clear. -/
theorem resetMeetsTheInvariants : Obligations.ResetMeetsTheInvariants := ⟨runInv_reset, slotInv_reset⟩

/-! ## Launches without an exactly loaded input (R51, R193) -/

/-- One address that holds no byte below `n`, or holds one from `n` on, is enough against `input_loaded`. -/
theorem Memory.holdsExactly_eq_false {m : Memory} {n a : Nat} (hm : m.wf)
    (h : (a < n ∧ m.read a = none) ∨ (n ≤ a ∧ m.read a ≠ none)) : m.holdsExactly n = false := by
  refine Bool.eq_false_iff.2 fun hexact => ?_
  have ha : (m.read a).isSome = true ↔ a < n := (Memory.holdsExactly_iff hm).1 hexact a
  rcases h with ⟨hlt, hnone⟩ | ⟨hle, hsome⟩
  · rw [hnone] at ha
    exact absurd (ha.2 hlt) nofun
  · exact absurd (ha.1 (Option.isSome_iff_ne_none.2 hsome)) hle.not_gt

theorem startDecode_of_unloaded {s : State} (hreq : reqChannelsOk s.reqChannels = true)
    (hsize : 22 ≤ s.streamSize.toNat) (hunloaded : s.stream.holdsExactly s.streamSize.toNat = false) :
    startDecode s = .refused .inputNotLoaded := by
  rw [startDecode, if_neg (by simp [hreq]), if_neg hsize.not_gt, if_pos hunloaded]

theorem startEncode_of_unloaded {s : State} (hvalid : validDesc s.desc = true)
    (hfits : s.desc.encodeNeed ≤ s.outCap.toNat)
    (hunloaded : s.pixels.holdsExactly (s.desc.pixelCount * s.desc.channels.toNat) = false) :
    startEncode s = .refused .inputNotLoaded := by
  rw [startEncode, if_neg (by simp [hvalid]), if_neg hfits.not_gt, if_pos hunloaded]

/-- Settles O31: the checks before `input_loaded` pass, and the one address shows that it fails. -/
theorem unloadedLaunchIsRefused : Obligations.UnloadedLaunchIsRefused := by
  rintro s a ⟨hstream, hpixels⟩ hq
  refine ⟨fun hcmd hreq hsize haddr => ?_, fun hcmd hvalid hfits haddr => ?_⟩
  · rw [step_of_cmd_two hq hcmd]
    exact startDecode_of_unloaded (s := s.setCmd 0) ((reqChannelsOk_iff _).2 hreq) hsize
      (Memory.holdsExactly_eq_false hstream haddr)
  · rw [step_of_cmd_one hq hcmd]
    exact startEncode_of_unloaded (s := s.setCmd 0) hvalid hfits (Memory.holdsExactly_eq_false hpixels haddr)

/-! ## Every busy step brings the end nearer (R206) -/

section StepsLeft

variable {s t : State}

theorem stepsLeft_of_busyEnc (hp : s.phase = .busyEnc) : stepsLeft s = s.pxlen.toNat - s.pxpos.toNat + 1 := by
  rw [stepsLeft, hp]

theorem stepsLeft_of_busyDec (hp : s.phase = .busyDec) : stepsLeft s = s.pxlen.toNat - s.pxpos.toNat := by
  rw [stepsLeft, hp]

theorem stepsLeft_of_done (hp : s.phase = .done) : stepsLeft s = 0 := by
  rw [stepsLeft, hp]

/-- A slot moves `PXPOS` by at least one byte, or it ends the run with bytes still counted (R112, R126). -/
theorem decSlot_stepsLeft_lt (hp : s.phase = .busyDec) (h : decSlot s = .next t) : stepsLeft t < stepsLeft s := by
  obtain ⟨hlt, -, ⟨hlen, -⟩, -, hpos, -⟩ := decSlot_spec h
  obtain ⟨-, hphase⟩ := decSlot_err_phase h
  rw [stepsLeft_of_busyDec hp]
  rcases hphase with hbusy | hdone
  · have hcount := s.outCh.count_eq
    rw [stepsLeft_of_busyDec (hbusy.trans hp), hlen, hpos]
    omega
  · rw [stepsLeft_of_done hdone]
    omega

/-- A pixel step moves `PXPOS` by the channel count, which is not 0 in a valid run (R104, R132). -/
theorem encPixel_stepsLeft_lt (hp : s.phase = .busyEnc) (hvalid : validDesc s.desc = true)
    (hlt : s.pxpos.toNat < s.pxlen.toNat) (h : encPixel s = .next t) : stepsLeft t < stepsLeft s := by
  have hchannels := validDesc_channels hvalid
  have hbusy := (encPixel_phase h).trans hp
  obtain ⟨cur, -, -, hroom, rfl⟩ := encPixel_eq_next.1 h
  have hpos := cursor_add hroom
  rw [stepsLeft_of_busyEnc hp, stepsLeft_of_busyEnc hbusy, hpos]
  dsimp only
  omega

/-- The padding step takes the last unit, the one that is counted for it (R147). -/
theorem encPad_stepsLeft_lt (hp : s.phase = .busyEnc) (h : encPad s = .next t) : stepsLeft t < stepsLeft s := by
  rw [stepsLeft_of_busyEnc hp, stepsLeft_of_done (encPad_phase h)]
  exact Nat.succ_pos _

end StepsLeft

/-- Settles O42: slot, pixel step and padding step each make the number smaller. -/
theorem busyStepComesNearerTheEnd : Obligations.BusyStepComesNearerTheEnd := by
  rintro s t ⟨-, -, -, -, henc⟩ hbusy h
  rcases step_cases h with ⟨hq, -⟩ | ⟨hp, h⟩ | ⟨hp, h⟩
  · exact absurd (hq.symm.trans hbusy) nofun
  · rcases encStep_cases h with ⟨hlt, h⟩ | ⟨-, h⟩
    · exact encPixel_stepsLeft_lt hp (henc hp).valid hlt h
    · exact encPad_stepsLeft_lt hp h
  · exact decSlot_stepsLeft_lt hp h

end Sys2Proof.Machine
